-- ==== Sys2Proof/Word.lean ====
section
/-! DEFINITION. The bit vectors of the S16 unit and the type that holds the Sample memory (rules R8, R10, R11, R60). -/

namespace Sys2Proof

/-- A 32-bit register value, command word, Sample address held in a register, or PackedWord (rules R8, R21, R61, R90). -/
abbrev Word := BitVec 32

/-- A signed 16-bit fixed-point value in two's complement (rules R8, R11). -/
abbrev Sample := BitVec 16

/-- A byte of the platform's byte view of the Sample memory (rule R65). -/
abbrev Byte := BitVec 8

/-- The accumulator `ACC` of VMEAN, `ACC_W` = 48 bits signed (rules R9, R38, R166). -/
abbrev Accumulator := BitVec 48

/-- The Sample memory `M` (rule R60): pairs of a Sample address and the 16-bit cell there.
The canonical form is `Mem.wf`; the operations are in `Machine/Ops.lean`. -/
abbrev Mem := List (Nat × Sample)

end Sys2Proof
end

