-- ==== Sys2Proof/Syntax.lean ====
section
/-! DEFINITION. The fifteen commands of the S16 unit, one constructor per row of the opcode map (rule R94). -/

namespace Sys2Proof

/-- A decoded command. An immediate is what rule R100 makes of `imm16`: an unsigned number for SAT, a Sample for
VFILL, a signed number for VSHIFT. Every other operand of a command stands in a fixed operand register (rule R93). -/
inductive Instr where
  /-- SAT `#bits` (rule R135). -/
  | sat (bits : Nat)
  /-- CLZ (rule R136). -/
  | clz
  /-- PACK16 (rule R137). -/
  | pack16
  /-- UNPK0 (rule R138). -/
  | unpk0
  /-- UNPK1 (rule R139). -/
  | unpk1
  /-- QADD16X2 (rule R140). -/
  | qadd16x2
  /-- QSUB16X2 (rule R141). -/
  | qsub16x2
  /-- VFILL `#value` (rule R162). -/
  | vfill (value : Sample)
  /-- VCOPY (rule R163). -/
  | vcopy
  /-- VADD (rule R164). -/
  | vadd
  /-- VSUB (rule R165). -/
  | vsub
  /-- VMEAN (rule R166). -/
  | vmean
  /-- VSHIFT `#shiftBits` (rule R167). -/
  | vshift (shiftBits : Int)
  /-- VABS (rule R168). -/
  | vabs
  /-- MTRANS (rule R201). -/
  | mtrans
  deriving DecidableEq, Repr

end Sys2Proof
end

