-- ==== Sys2Proof/WellFormed.lean ====
section
/-! DEFINITION. Which commands can be written in a command word: the ranges of the immediates (rules R93, R98). -/

namespace Sys2Proof

/-- The immediate fits `imm16` as the command reads it: `bits` unsigned, `shiftBits` signed (rules R93, R98).
A VFILL value is a Sample and always fits. -/
def Instr.wellFormed : Instr → Bool
  | .sat bits => decide (bits ≤ 65535)
  | .vshift n => decide (-32768 ≤ n ∧ n ≤ 32767)
  | .vfill _ => true
  | .clz => true
  | .pack16 => true
  | .unpk0 => true
  | .unpk1 => true
  | .qadd16x2 => true
  | .qsub16x2 => true
  | .vcopy => true
  | .vadd => true
  | .vsub => true
  | .vmean => true
  | .vabs => true
  | .mtrans => true

end Sys2Proof
end

