-- ==== Sys2Proof/Decode.lean ====
section
/-! DEFINITION. The decoder of rule R100, total on all 2^32 command words; the opcode map of rule R94; the encoder of
rule R101. -/

namespace Sys2Proof

/-- Why a command word is illegal (rules R95, R100). All four end in the one condition `IllegalCommand` (rule R243). -/
inductive Illegal where
  /-- `zero` is not 0x00. -/
  | zeroField
  /-- The opcode is not one of 0x01..0x06, 0x10..0x16, 0x20. -/
  | opcode
  /-- A format N command whose `imm16` is not 0x0000. -/
  | immediate
  /-- Opcode 0x04 whose `imm16` is neither 0 nor 1. -/
  | selector
  deriving DecidableEq, Repr

/-- `c[7:0]` (rule R91). -/
def opcodeField (c : Word) : BitVec 8 := c.extractLsb' 0 8

/-- `c[15:8]` (rule R91). -/
def zeroField (c : Word) : BitVec 8 := c.extractLsb' 8 8

/-- `c[31:16]` (rule R91). -/
def imm16Field (c : Word) : BitVec 16 := c.extractLsb' 16 16

/-- A format N command: legal only with `imm16 = 0x0000` (rule R92). -/
def decodeFormatN (imm : BitVec 16) (i : Instr) : Except Illegal Instr :=
  if imm = 0#16 then .ok i else .error .immediate

/-- Opcode 0x04: the immediate selects the element (rules R92, R95). -/
def decodeUnpack (imm : BitVec 16) : Except Illegal Instr :=
  if imm = 0#16 then .ok .unpk0 else if imm = 1#16 then .ok .unpk1 else .error .selector

/-- The `case op of` of rule R100. -/
def decodeOpcode (op : BitVec 8) (imm : BitVec 16) : Except Illegal Instr :=
  if op = 0x01#8 then .ok (.sat imm.toNat)
  else if op = 0x02#8 then decodeFormatN imm .clz
  else if op = 0x03#8 then decodeFormatN imm .pack16
  else if op = 0x04#8 then decodeUnpack imm
  else if op = 0x05#8 then decodeFormatN imm .qadd16x2
  else if op = 0x06#8 then decodeFormatN imm .qsub16x2
  else if op = 0x10#8 then .ok (.vfill imm)
  else if op = 0x11#8 then decodeFormatN imm .vcopy
  else if op = 0x12#8 then decodeFormatN imm .vadd
  else if op = 0x13#8 then decodeFormatN imm .vsub
  else if op = 0x14#8 then decodeFormatN imm .vmean
  else if op = 0x15#8 then .ok (.vshift imm.toInt)
  else if op = 0x16#8 then decodeFormatN imm .vabs
  else if op = 0x20#8 then decodeFormatN imm .mtrans
  else .error .opcode

/-- The decode procedure of rule R100. It reads nothing but the word. -/
def decode (c : Word) : Except Illegal Instr :=
  if zeroField c = 0x00#8 then decodeOpcode (opcodeField c) (imm16Field c) else .error .zeroField

/-- The word with the given `imm16` and opcode and `zero = 0x00` (rule R91). -/
def commandWord (imm : BitVec 16) (op : BitVec 8) : Word := (imm ++ 0x00#8 ++ op : BitVec (16 + 8 + 8))

/-- The encoder of rule R101, with the words of rule R98. -/
def encode : Instr → Word
  | .sat bits => commandWord (BitVec.ofNat 16 bits) 0x01#8
  | .clz => commandWord 0#16 0x02#8
  | .pack16 => commandWord 0#16 0x03#8
  | .unpk0 => commandWord 0#16 0x04#8
  | .unpk1 => commandWord 1#16 0x04#8
  | .qadd16x2 => commandWord 0#16 0x05#8
  | .qsub16x2 => commandWord 0#16 0x06#8
  | .vfill value => commandWord value 0x10#8
  | .vcopy => commandWord 0#16 0x11#8
  | .vadd => commandWord 0#16 0x12#8
  | .vsub => commandWord 0#16 0x13#8
  | .vmean => commandWord 0#16 0x14#8
  | .vshift n => commandWord (BitVec.ofInt 16 n) 0x15#8
  | .vabs => commandWord 0#16 0x16#8
  | .mtrans => commandWord 0#16 0x20#8

/-- One row of the opcode map. -/
structure OpcodeRow where
  mnemonic : String
  matchWord : Word
  mask : Word
  deriving DecidableEq, Repr

/-- A word selects a row when `(c & mask) == match` (rule R94). -/
def OpcodeRow.selects (r : OpcodeRow) (c : Word) : Bool := c &&& r.mask == r.matchWord

/-- The opcode map of rule R94, row by row in its order. -/
def opcodeMap : List OpcodeRow := [
  ⟨"SAT", 0x00000001#32, 0x0000FFFF#32⟩,
  ⟨"CLZ", 0x00000002#32, 0xFFFFFFFF#32⟩,
  ⟨"PACK16", 0x00000003#32, 0xFFFFFFFF#32⟩,
  ⟨"UNPK0", 0x00000004#32, 0xFFFFFFFF#32⟩,
  ⟨"UNPK1", 0x00010004#32, 0xFFFFFFFF#32⟩,
  ⟨"QADD16X2", 0x00000005#32, 0xFFFFFFFF#32⟩,
  ⟨"QSUB16X2", 0x00000006#32, 0xFFFFFFFF#32⟩,
  ⟨"VFILL", 0x00000010#32, 0x0000FFFF#32⟩,
  ⟨"VCOPY", 0x00000011#32, 0xFFFFFFFF#32⟩,
  ⟨"VADD", 0x00000012#32, 0xFFFFFFFF#32⟩,
  ⟨"VSUB", 0x00000013#32, 0xFFFFFFFF#32⟩,
  ⟨"VMEAN", 0x00000014#32, 0xFFFFFFFF#32⟩,
  ⟨"VSHIFT", 0x00000015#32, 0x0000FFFF#32⟩,
  ⟨"VABS", 0x00000016#32, 0xFFFFFFFF#32⟩,
  ⟨"MTRANS", 0x00000020#32, 0xFFFFFFFF#32⟩]

/-- The mnemonic of a command's row of the opcode map (rule R94). -/
def Instr.mnemonic : Instr → String
  | .sat _ => "SAT"
  | .clz => "CLZ"
  | .pack16 => "PACK16"
  | .unpk0 => "UNPK0"
  | .unpk1 => "UNPK1"
  | .qadd16x2 => "QADD16X2"
  | .qsub16x2 => "QSUB16X2"
  | .vfill _ => "VFILL"
  | .vcopy => "VCOPY"
  | .vadd => "VADD"
  | .vsub => "VSUB"
  | .vmean => "VMEAN"
  | .vshift _ => "VSHIFT"
  | .vabs => "VABS"
  | .mtrans => "MTRANS"

/-- What the decoder reads from the command word whose bits are `w`; `nbits` is the number of bits the opcode table gives
the row, and every bit above it is 0. A command word reaches the unit whole over the host port (rule R90), so no byte
order enters. -/
def decodeTableWord (nbits w : Nat) : Option Instr :=
  match decode (BitVec.ofNat 32 (w % 2 ^ nbits)) with
  | .ok i => some i
  | .error _ => none

end Sys2Proof
end

