-- ==== Sys2Proof/Config.lean ====
section
/-! DEFINITION. What the platform fixes for the unit (rules R7, R9, R42) and the free values of the cases the spec leaves
without a value (93_implementation_defined.md U3, U11). -/

namespace Sys2Proof

/-- The strap `ENDIAN` (rule R7): which half of a PackedWord element 0 goes to. -/
inductive Endian where
  | little
  | big
  deriving DecidableEq, Repr

/-- The three constant straps of rule R7. -/
structure Straps where
  /-- `PACKED_EN`: the sequencer runs the packed main loop of rule R223. -/
  packedEn : Bool
  /-- `ENDIAN`. -/
  endian : Endian
  /-- `SHAPE_CHECK_EN`: MTRANS makes the shape check of rule R202. -/
  shapeCheckEn : Bool
  deriving DecidableEq, Repr

/-- The constants of one platform: the straps and `MEM_SAMPLES`, which rule R9 leaves open between 0 and 2^32.
No step changes them (rules R7, R42). -/
structure Platform where
  straps : Straps
  /-- `MEM_SAMPLES`: an address is valid when it is below this number (rule R61). -/
  memSamples : Fin 4294967297
  deriving DecidableEq, Repr

/-- Everything an undefined outcome might depend on: the draw number, the command, the platform, the eight operand
registers and the memory before the command. -/
structure Circumstances where
  draw : Nat
  command : Instr
  platform : Platform
  operands : List Word
  memory : Mem
  deriving DecidableEq, Repr

/-- FREE VALUE (log entry 6; 93_implementation_defined.md U3, treatment `any value`): what an output cell of a command
holds after the command ran with a forbidden overlap of its output and an input. It has no body, so nothing is known
of it. -/
opaque Config.overlapCell : Circumstances → Nat → Sample

/-- FREE VALUE (log entry 7; rule R271, 93_implementation_defined.md U11): whether the output cell at an address holds
the value the command would have written (true) or its old value (false) when reset came while the command ran. -/
opaque Config.resetCellIsNew : Circumstances → Nat → Bool

end Sys2Proof
end

