-- ==== Sys2Proof/Machine/Datapath.lean ====
section
/-! DEFINITION. The datapath functions of 40_primitives.md Part A (rules R120 to R133) and the divider and accumulator
steps of VMEAN (rule R166). All are total and read nothing but their arguments; only `pack16`, `e0`, `e1` take the
`ENDIAN` strap (rule R133). -/

namespace Sys2Proof.Machine

/-- `sat(v, bits)`, the saturator (rule R120): `v` unchanged for `bits` outside 1..32. -/
def sat (v : Word) (bits : Nat) : Word :=
  if 1 ≤ bits ∧ bits ≤ 32 then
    let max : Int := ((2 ^ (bits - 1) : Nat) : Int) - 1
    let min : Int := -1 - max
    if v.toInt > max then BitVec.ofInt 32 max
    else if v.toInt < min then BitVec.ofInt 32 min
    else v
  else v

/-- `sat16(z)` for any integer `z` (rule R121). -/
def sat16 (z : Int) : Sample := BitVec.ofInt 16 (min 32767 (max (-32768) z))

/-- `v[15:0]` of a word: lane 0, or the Sample operand held in a register (rules R93, R125). -/
def lane0 (w : Word) : Sample := w.extractLsb' 0 16

/-- `w[31:16]` (rule R125). -/
def lane1 (w : Word) : Sample := w.extractLsb' 16 16

/-- The word `{hi, lo}` of two lanes (rules R10, R125). -/
def lanes (hi lo : Sample) : Word := (hi ++ lo : BitVec (16 + 16))

/-- The count of rule R122 over the bits below position `i`: zeros before the first set bit, most significant first. -/
def zerosBelow (v : Word) : Nat → Nat
  | 0 => 0
  | i + 1 => if v.getLsbD i then 0 else zerosBelow v i + 1

/-- `clz(v)`, the leading-zero count in 0..32 (rule R122). -/
def clz (v : Word) : Nat := if v = 0#32 then 32 else zerosBelow v 32

/-- `pack16(low, high)` under a strap value (rule R123). -/
def pack16 (e : Endian) (low high : Sample) : Word :=
  match e with
  | .little => lanes high low
  | .big => lanes low high

/-- `e0(w)`: element 0, what was packed as `low` (rule R124). -/
def e0 (e : Endian) (w : Word) : Sample :=
  match e with
  | .little => lane0 w
  | .big => lane1 w

/-- `e1(w)`: element 1, what was packed as `high` (rule R124). -/
def e1 (e : Endian) (w : Word) : Sample :=
  match e with
  | .little => lane1 w
  | .big => lane0 w

/-- One lane of the saturating adder (rule R126). -/
def qadd16 (a b : Sample) : Sample := sat16 (a.toInt + b.toInt)

/-- One lane of the saturating subtractor (rule R126). -/
def qsub16 (a b : Sample) : Sample := sat16 (a.toInt - b.toInt)

/-- `qadd16x2`: both lanes, no carry between them (rule R127). -/
def qadd16x2 (a b : Word) : Word := lanes (qadd16 (lane1 a) (lane1 b)) (qadd16 (lane0 a) (lane0 b))

/-- `qsub16x2`: both lanes, no borrow between them (rule R128). -/
def qsub16x2 (a b : Word) : Word := lanes (qsub16 (lane1 a) (lane1 b)) (qsub16 (lane0 a) (lane0 b))

/-- The scalar line of VADD: a 32-bit sum through the saturator (rule R164). -/
def scalarAdd (a b : Sample) : Sample := lane0 (sat (BitVec.ofInt 32 (a.toInt + b.toInt)) 16)

/-- The scalar line of VSUB: a 32-bit difference through the saturator (rule R165). -/
def scalarSub (a b : Sample) : Sample := lane0 (sat (BitVec.ofInt 32 (a.toInt - b.toInt)) 16)

/-- `shift16(x, n)` as rule R129 defines it: exact left shift then saturation, floor division for a right shift. -/
def shift16 (x : Sample) (n : Int) : Sample :=
  if 0 ≤ n then sat16 (x.toInt * ((2 ^ n.toNat : Nat) : Int))
  else BitVec.ofInt 16 (x.toInt.fdiv ((2 ^ (-n).toNat : Nat) : Int))

/-- The four stages of the shift pipeline of rule R129: sign-extend to 32 bits, clamp the amount, shift, then saturate a
left shift and keep bits 15:0. -/
def shiftPipeline (x : Sample) (n : Int) : Sample :=
  let w : Word := x.signExtend 32
  if 0 ≤ n then lane0 (sat (w <<< (min n 16).toNat) 16)
  else lane0 (w.sshiftRight (min (-n) 15).toNat)

/-- Both lanes through the shift pipeline, by the same amount (rule R130). -/
def shiftPipeline16x2 (w : Word) (n : Int) : Word := lanes (shiftPipeline (lane1 w) n) (shiftPipeline (lane0 w) n)

/-- `abs16(x)` as rule R131 defines it. -/
def abs16 (x : Sample) : Sample := if 0 ≤ x.toInt then x else sat16 (-x.toInt)

/-- The scalar line of VABS, strategy (b) of rule R131: the minimum is a special case (rule R168). -/
def scalarAbs (x : Sample) : Sample :=
  if 0 ≤ x.toInt then x else if x = 0x8000#16 then 0x7FFF#16 else BitVec.ofInt 16 (-x.toInt)

/-- The select of rule R132: the lane itself when its bit 15 is 0, the negated lane when it is 1. -/
def absSelect (x negated : Sample) : Sample := if x.msb then negated else x

/-- `abs16x2` as the packed datapath computes it, a saturating subtract from zero and a select per lane (rule R132). -/
def abs16x2 (w : Word) : Word :=
  let t := qsub16x2 0x00000000#32 w
  lanes (absSelect (lane1 w) (lane1 t)) (absSelect (lane0 w) (lane0 t))

/-- `ACC + S(v)` in the 48-bit accumulator (rule R166). -/
def accumulate (acc : Accumulator) (v : Sample) : Accumulator := acc + v.signExtend 48

/-- The truncating division of the mean and its narrowing through the saturator, sign-extended for `RES` (rule R166). -/
def meanWord (acc : Accumulator) (n : Nat) : Word :=
  (lane0 (sat (BitVec.ofInt 32 (acc.toInt.tdiv n)) 16)).signExtend 32

end Sys2Proof.Machine
end

