-- ==== Sys2Proof/Machine/State.lean ====
section
/-! DEFINITION. The state of the unit and its platform (rules R20, R39, R60), the reasons a step can stop, the host moves
of rule R15 and the state after reset (rule R40). -/

namespace Sys2Proof.Machine

/-- The eight operand registers `x[0]`..`x[7]`, by their names (rule R21). -/
structure OperandRegs where
  /-- `x[0]` (rule R22). -/
  srca : Word
  /-- `x[1]` (rule R23). -/
  srcb : Word
  /-- `x[2]` (rule R24). -/
  dst : Word
  /-- `x[3]` (rule R25). -/
  len : Word
  /-- `x[4]` (rule R26). -/
  sdim : Word
  /-- `x[5]` (rule R27). -/
  ddim : Word
  /-- `x[6]` (rule R28). -/
  opa : Word
  /-- `x[7]` (rule R29). -/
  opb : Word
  deriving DecidableEq, Repr

/-- One move of the host or of the platform (rule R15, directives of rule R99). A register index is 0..15 and a register
access is a whole word (rules R35, R41; 93_implementation_defined.md U21). -/
inductive HostMove where
  /-- `HostWriteReg(i, v)`; a write of index 11 issues `v` as a command. -/
  | writeReg (i : Fin 16) (v : Word)
  /-- `HostReadReg(i)`. -/
  | readReg (i : Fin 16)
  /-- `Issue(c)`. -/
  | issue (c : Word)
  /-- The host sets `M[a] <- v` between commands (directive `MEM`). -/
  | pokeCell (a : Word) (v : Sample)
  /-- The host reads `M[a]` between commands. -/
  | peekCell (a : Word)
  /-- The host writes one byte through the byte view of rule R65. -/
  | pokeByte (b : Nat) (v : Byte)
  /-- The host reads one byte through the byte view of rule R65. -/
  | peekByte (b : Nat)
  /-- The reset input is asserted and released between commands (rule R270). -/
  | reset
  /-- The command word `c` is issued and reset comes while its command runs (rule R271). -/
  | resetDuring (c : Word)
  deriving DecidableEq, Repr

/-- What a reading move returns to the host. -/
inductive HostValue where
  | word (v : Word)
  | cell (v : Sample)
  | byte (v : Byte)
  deriving DecidableEq, Repr

/-- The state. `ops`, `res`, `code` are the architectural state of the unit (rule R20); `mem` is the Sample memory it
changes (rule R39); `platform` holds constants that no step changes (rule R42); `hostIn` and `hostOut` are the two sides
of the host port; `draws` is the model's own counter of free values. -/
structure State where
  /-- The operand registers `x[0]`..`x[7]` (rule R21). -/
  ops : OperandRegs
  /-- `RES` (rule R31). -/
  res : Word
  /-- `STATUS.CODE` (rule R32). -/
  code : BitVec 2
  /-- The Sample memory `M` (rules R39, R60). -/
  mem : Mem
  /-- The straps and `MEM_SAMPLES` (rules R7, R9). -/
  platform : Platform
  /-- The moves the host has yet to make, next one first (rules R15, R99). -/
  hostIn : List HostMove
  /-- The values returned to the host, latest first. -/
  hostOut : List HostValue
  /-- How many free values have been drawn; the model's own. -/
  draws : Nat
  deriving DecidableEq, Repr

/-- Why the machine stops. -/
inductive Fault where
  /-- A command would access a Sample address that is not below `MEM_SAMPLES`. Raised by the vector commands and MTRANS;
  rule R72 calls the case undefined and 93_implementation_defined.md U1 treats it as a fault. Safe. -/
  | invalidAddress
  /-- A move of the host names a cell or a byte of the Sample memory that does not exist (rules R60, R61). Raised by the
  memory moves of the host port only. Safe. -/
  | hostInvalidAddress
  deriving DecidableEq, Repr

/-- Why the model declines. -/
inductive Refusal where
  /-- The instruction has no meaning yet. Raised by no arm: every command is modelled. Safe. -/
  | notModelled (mnemonic : String)
  deriving DecidableEq, Repr

/-- Every operand register zero (rule R40). -/
def OperandRegs.zero : OperandRegs := ⟨0#32, 0#32, 0#32, 0#32, 0#32, 0#32, 0#32, 0#32⟩

/-- The state right after reset on a given platform with a given initial memory (rules R40, R270). Strap values,
`MEM_SAMPLES` and the initial memory are open parameters (92_eei_decisions.md D42). -/
def State.resetOn (p : Platform) (m : Mem) : State where
  ops := OperandRegs.zero
  res := 0#32
  code := 0#2
  mem := m
  platform := p
  hostIn := []
  hostOut := []
  draws := 0

/-- DESIGN CHOICE (log entry 2): the platform of `State.reset`: packed execution on, little-endian, shape check on, and a
memory of 2^32 Samples. -/
def Platform.standard : Platform where
  straps := { packedEn := true, endian := .little, shapeCheckEn := true }
  memSamples := ⟨4294967296, by decide⟩

/-- The machine right after reset, with no cell of memory listed and no host move made. -/
def State.reset : State := State.resetOn Platform.standard []

end Sys2Proof.Machine
end

