-- ==== Sys2Proof/Machine/Flags.lean ====
section
/-! DEFINITION. There are no flags (rule R37). The one status field is `STATUS.CODE`: the conditions a command ends with
(rule R241) and the words the host reads of `STATUS` and `CONFIG` (rules R32, R33). -/

namespace Sys2Proof.Machine

/-- The conditions a command can end with (rule R241). -/
inductive Condition where
  | success
  | sizeMismatch
  | illegalCommand
  deriving DecidableEq, Repr

/-- The value a condition leaves in `STATUS.CODE` (rule R241). -/
def conditionCode : Condition → BitVec 2
  | .success => 0#2
  | .sizeMismatch => 1#2
  | .illegalCommand => 2#2

/-- `STATUS` as the host reads it: `CODE` in bits 1:0, the reserved bits 0 (rule R32). -/
def statusWord (code : BitVec 2) : Word := code.setWidth 32

/-- `CONFIG` as the host reads it: `PACKED_EN`, `ENDIAN`, `SHAPE_CHECK_EN` in bits 0, 1, 2, the rest 0 (rule R33). -/
def configWord (st : Straps) : Word :=
  (0#29 ++ BitVec.ofBool st.shapeCheckEn ++ BitVec.ofBool (st.endian == .big) ++ BitVec.ofBool st.packedEn
    : BitVec (29 + 1 + 1 + 1))

end Sys2Proof.Machine
end

