-- ==== Sys2Proof/Machine/Operands.lean ====
section
/-! DEFINITION. How a command reads the operand registers (rules R22 to R29) and how the host port numbers the registers
(rules R21, R31 to R35). -/

namespace Sys2Proof.Machine

/-- `SRCA` as a Sample address (rule R22). -/
def State.srcA (s : State) : Nat := s.ops.srca.toNat

/-- `SRCB` as a Sample address (rule R23). -/
def State.srcB (s : State) : Nat := s.ops.srcb.toNat

/-- `DST` as a Sample address (rule R24). -/
def State.dstA (s : State) : Nat := s.ops.dst.toNat

/-- `LEN`, the unsigned element count (rule R25). -/
def State.count (s : State) : Nat := s.ops.len.toNat

/-- `ROWS`, bits 15:0 of a dimension register (rules R26, R27). -/
def dimRows (w : Word) : Nat := (w.extractLsb' 0 16).toNat

/-- `COLS`, bits 31:16 of a dimension register (rules R26, R27). -/
def dimCols (w : Word) : Nat := (w.extractLsb' 16 16).toNat

/-- `R`, the source row count (rules R26, R200). -/
def State.rows (s : State) : Nat := dimRows s.ops.sdim

/-- `C`, the source column count (rules R26, R200). -/
def State.cols (s : State) : Nat := dimCols s.ops.sdim

/-- What an index of the host port reaches (rules R21, R31 to R35). -/
inductive HostReg where
  | srca
  | srcb
  | dst
  | len
  | sdim
  | ddim
  | opa
  | opb
  | res
  | status
  | config
  | cmd
  | reserved
  deriving DecidableEq, Repr

/-- The register at an index of the host port (rules R21, R31 to R35). -/
def hostReg (i : Fin 16) : HostReg :=
  match i.val with
  | 0 => .srca
  | 1 => .srcb
  | 2 => .dst
  | 3 => .len
  | 4 => .sdim
  | 5 => .ddim
  | 6 => .opa
  | 7 => .opb
  | 8 => .res
  | 9 => .status
  | 10 => .config
  | 11 => .cmd
  | _ => .reserved

/-- The eight operand registers in index order (rule R21). -/
def OperandRegs.toList (x : OperandRegs) : List Word :=
  [x.srca, x.srcb, x.dst, x.len, x.sdim, x.ddim, x.opa, x.opb]

end Sys2Proof.Machine
end

