-- ==== Sys2Proof/Machine/Ops.lean ====
section
/-! DEFINITION. The operations the meanings share: the Sample memory (20_memory.md), the memory port with its two access
widths (rules R62, R63), the unrolled-loop pattern of the sequencer (rules R220 to R223), the end of a command, `raise`
(rule R247), and the checks and free values of the undefined cases (rules R72, R74). -/

namespace Sys2Proof

/-- DESIGN CHOICE (log entry 3): what a cell that nothing has written reads as. -/
def Mem.unlisted : Sample := 0#16

/-- The canonical form: addresses strictly rising, no cell equal to what an unlisted address reads as. -/
abbrev Mem.wf (m : Mem) : Prop := m.Pairwise (fun p q => p.1 < q.1) ∧ ∀ p ∈ m, p.2 ≠ Mem.unlisted

/-- The cell `M[a]` (rule R62). -/
def Mem.read : Mem → Nat → Sample
  | [], _ => Mem.unlisted
  | (b, w) :: m, a => if a = b then w else Mem.read m a

/-- `M[a] <- v` and no other cell (rule R62), in canonical form. -/
def Mem.write : Mem → Nat → Sample → Mem
  | [], a, v => if v = Mem.unlisted then [] else [(a, v)]
  | (b, w) :: m, a, v =>
    if a < b then if v = Mem.unlisted then (b, w) :: m else (a, v) :: (b, w) :: m
    else if a = b then if v = Mem.unlisted then m else (a, v) :: m
    else (b, w) :: Mem.write m a v

/-- `MemRead(a, 2)`: the Sample at `a` is `low`, the one at `a+1` is `high` (rule R63). -/
def Mem.readPair (e : Endian) (m : Mem) (a : Nat) : Word := Machine.pack16 e (m.read a) (m.read (a + 1))

/-- `MemWrite(a, 2, w)` (rule R63). -/
def Mem.writePair (e : Endian) (m : Mem) (a : Nat) (w : Word) : Mem :=
  (m.write a (Machine.e0 e w)).write (a + 1) (Machine.e1 e w)

/-- Whether byte `b` of the byte view is the more significant byte of its Sample (rule R65). -/
def byteIsHigh (e : Endian) (b : Nat) : Bool :=
  match e with
  | .little => b % 2 == 1
  | .big => b % 2 == 0

/-- One byte of the byte view of the Sample memory (rule R65). -/
def Mem.readByte (e : Endian) (m : Mem) (b : Nat) : Byte :=
  if byteIsHigh e b then (m.read (b / 2)).extractLsb' 8 8 else (m.read (b / 2)).extractLsb' 0 8

/-- A write of one byte through the byte view: the other byte of the Sample stays (rule R65). -/
def Mem.writeByte (e : Endian) (m : Mem) (b : Nat) (v : Byte) : Mem :=
  let x := m.read (b / 2)
  m.write (b / 2)
    (if byteIsHigh e b then (v ++ x.extractLsb' 0 8 : BitVec (8 + 8)) else (x.extractLsb' 8 8 ++ v : BitVec (8 + 8)))

end Sys2Proof

namespace Sys2Proof.Machine

/-! ### The memory port -/

/-- One access on the memory port: a single or a pair (rules R62, R63), with its Sample address. -/
inductive Access where
  | readSingle (a : Nat)
  | readPair (a : Nat)
  | writeSingle (a : Nat)
  | writePair (a : Nat)
  deriving DecidableEq, Repr

/-- The memory port while a command runs: the memory and the accesses made so far, latest first. Part of the hidden
state of rule R38: a command keeps only the memory. -/
structure Port where
  mem : Mem
  log : List Access
  deriving DecidableEq, Repr

/-- `MemRead(a, 1)`: the Sample and the port after it. -/
def Port.readSingle (p : Port) (a : Nat) : Sample × Port := (p.mem.read a, { p with log := .readSingle a :: p.log })

/-- `MemRead(a, 2)`. -/
def Port.readPair (p : Port) (e : Endian) (a : Nat) : Word × Port :=
  (p.mem.readPair e a, { p with log := .readPair a :: p.log })

/-- `MemWrite(a, 1, v)`. -/
def Port.writeSingle (p : Port) (a : Nat) (v : Sample) : Port := ⟨p.mem.write a v, .writeSingle a :: p.log⟩

/-- `MemWrite(a, 2, w)`. -/
def Port.writePair (p : Port) (e : Endian) (a : Nat) (w : Word) : Port :=
  ⟨p.mem.writePair e a w, .writePair a :: p.log⟩

/-! ### The unrolled-loop pattern -/

/-- `k` elements one at a time from index `i` upwards: the scalar path and the remainder loop (rules R222, R223). -/
def scalarLoop {σ : Type} (scalar : Nat → σ → σ) : Nat → Nat → σ → σ
  | _, 0, st => st
  | i, k + 1, st => scalarLoop scalar (i + 1) k (scalar i st)

/-- `k` iterations of the main loop from index `i`: four elements, two packed operations each (rule R223). -/
def mainLoop {σ : Type} (packed : Nat → σ → σ) : Nat → Nat → σ → σ
  | _, 0, st => st
  | i, k + 1, st => mainLoop packed (i + 4) k (packed (i + 2) (packed i st))

/-- The pattern of rule R220 over `n` elements: the packed path of rule R223 or the scalar path of rule R222, chosen by
the strap `PACKED_EN` alone (rule R221). -/
def unrolled {σ : Type} (packedEn : Bool) (n : Nat) (packed scalar : Nat → σ → σ) (st : σ) : σ :=
  if packedEn then scalarLoop scalar (4 * (n / 4)) (n % 4) (mainLoop packed 0 (n / 4) st)
  else scalarLoop scalar 0 n st

/-! ### The end of a command -/

/-- A command that returns a value ends: `RES <- v`, `STATUS.CODE <- 0` (rules R31, R134). -/
def State.endWithResult (s : State) (v : Word) : State := { s with res := v, code := conditionCode .success }

/-- A command that writes memory ends: its writes are done, `STATUS.CODE <- 0` (rules R77, R161). -/
def State.endWithMemory (s : State) (m : Mem) : State := { s with mem := m, code := conditionCode .success }

/-- `raise <Condition>`: nothing but `STATUS.CODE` is written; nothing is saved and control goes nowhere (rule R247).
There is no return from it, since nothing was entered (rule R248). -/
def State.raise (s : State) (c : Condition) : State := { s with code := conditionCode c }

/-! ### The undefined cases -/

/-- Every address of `[base, base + n)` is valid; an empty range always is (rules R61, R72, R73, R169). Sums are exact
integers and never wrap. -/
def State.rangeValid (s : State) (base n : Nat) : Bool := n == 0 || decide (base + n ≤ s.platform.memSamples.val)

/-- `[a, a + n)` and `[b, b + n)` intersect (rule R74). -/
def rangesMeet (a b n : Nat) : Bool := decide (0 < n ∧ a < b + n ∧ b < a + n)

/-- An output range partly overlaps an input range: they intersect and the bases differ (rule R74 item 3). -/
def partlyOverlaps (out inp n : Nat) : Bool := rangesMeet out inp n && out != inp

/-- What the free values of an undefined outcome may depend on. -/
def State.circumstances (s : State) (i : Instr) : Circumstances :=
  ⟨s.draws, i, s.platform, s.ops.toList, s.mem⟩

/-- Each of the `n` cells from `base` written with a value of `f`. -/
def writeRange (f : Nat → Sample) (base n : Nat) (m : Mem) : Mem :=
  scalarLoop (fun i m => m.write (base + i) (f (base + i))) 0 n m

/-- The end of a command whose output range overlaps an input as rule R74 forbids: every cell of the output range takes a
free value, everything else is as specified (93_implementation_defined.md U3, `any value`; log entry 6). -/
def State.endUndefinedOutput (s : State) (i : Instr) (base n : Nat) : State :=
  { s with
    mem := writeRange (Config.overlapCell (s.circumstances i)) base n s.mem
    code := conditionCode .success
    draws := s.draws + 1 }

/-- A memory command with its accessed ranges `ranges`, output range `[base, base + n)`, a forbidden overlap or not, and
the memory it leaves when it is defined. The range check is made before any effect (93_implementation_defined.md U1). -/
def State.endMemoryCommand (s : State) (i : Instr) (valid overlap : Bool) (base n : Nat) (result : Mem) :
    Host.Outcome State Fault Refusal :=
  if valid then .next (if overlap then s.endUndefinedOutput i base n else s.endWithMemory result)
  else .fault .invalidAddress

end Sys2Proof.Machine
end

