-- ==== Sys2Proof/Machine/Vector.lean ====
section
/-! DEFINITION. The seven vector commands (41_vector.md): the scalar and packed lines of each command's rule, run by the
unrolled-loop pattern, and the meaning of each command. A `…Port` function is the memory port after the command's run. -/

namespace Sys2Proof.Machine

/-- The memory port at the start of a command. -/
def State.port (s : State) : Port := ⟨s.mem, []⟩

/-- The scalar line of a command with one input: read, transform, write (rules R163, R167, R168). -/
def unaryScalar (f : Sample → Sample) (src dst i : Nat) (p : Port) : Port :=
  let r := p.readSingle (src + i)
  r.2.writeSingle (dst + i) (f r.1)

/-- The packed line of a command with one input (rules R163, R167, R168). -/
def unaryPacked (e : Endian) (f : Word → Word) (src dst i : Nat) (p : Port) : Port :=
  let r := p.readPair e (src + i)
  r.2.writePair e (dst + i) (f r.1)

/-- The scalar line of a command with two inputs (rules R164, R165). -/
def binaryScalar (f : Sample → Sample → Sample) (srcA srcB dst i : Nat) (p : Port) : Port :=
  let a := p.readSingle (srcA + i)
  let b := a.2.readSingle (srcB + i)
  b.2.writeSingle (dst + i) (f a.1 b.1)

/-- The packed line of a command with two inputs (rules R164, R165). -/
def binaryPacked (e : Endian) (f : Word → Word → Word) (srcA srcB dst i : Nat) (p : Port) : Port :=
  let a := p.readPair e (srcA + i)
  let b := a.2.readPair e (srcB + i)
  b.2.writePair e (dst + i) (f a.1 b.1)

/-- The port after a command with one input ran over `LEN` elements. -/
def State.unaryPort (s : State) (f : Sample → Sample) (f2 : Word → Word) : Port :=
  unrolled s.platform.straps.packedEn s.count (unaryPacked s.platform.straps.endian f2 s.srcA s.dstA)
    (unaryScalar f s.srcA s.dstA) s.port

/-- The port after a command with two inputs ran over `LEN` elements. -/
def State.binaryPort (s : State) (f : Sample → Sample → Sample) (f2 : Word → Word → Word) : Port :=
  unrolled s.platform.straps.packedEn s.count (binaryPacked s.platform.straps.endian f2 s.srcA s.srcB s.dstA)
    (binaryScalar f s.srcA s.srcB s.dstA) s.port

/-- Every address of a command with one input is valid (rule R72). -/
def State.unaryValid (s : State) : Bool := s.rangeValid s.srcA s.count && s.rangeValid s.dstA s.count

/-- Every address of a command with two inputs is valid (rule R72). -/
def State.binaryValid (s : State) : Bool := s.unaryValid && s.rangeValid s.srcB s.count

/-- The output partly overlaps the one input (rule R74). -/
def State.unaryOverlap (s : State) : Bool := partlyOverlaps s.dstA s.srcA s.count

/-- The output partly overlaps an input (rule R74). -/
def State.binaryOverlap (s : State) : Bool := s.unaryOverlap || partlyOverlaps s.dstA s.srcB s.count

/-- A command with one input, from its port (rules R160, R161). -/
def State.endUnary (s : State) (i : Instr) (p : Port) : Host.Outcome State Fault Refusal :=
  s.endMemoryCommand i s.unaryValid s.unaryOverlap s.dstA s.count p.mem

/-- A command with two inputs, from its port (rules R160, R161). -/
def State.endBinary (s : State) (i : Instr) (p : Port) : Host.Outcome State Fault Refusal :=
  s.endMemoryCommand i s.binaryValid s.binaryOverlap s.dstA s.count p.mem

/-- VFILL's port: the scalar and packed lines of rule R162. -/
def vfillPort (v : Sample) (s : State) : Port :=
  unrolled s.platform.straps.packedEn s.count
    (fun i p => p.writePair s.platform.straps.endian (s.dstA + i) (pack16 s.platform.straps.endian v v))
    (fun i p => p.writeSingle (s.dstA + i) v) s.port

/-- VCOPY's port (rule R163). -/
def vcopyPort (s : State) : Port := s.unaryPort id id

/-- VADD's port (rule R164). -/
def vaddPort (s : State) : Port := s.binaryPort scalarAdd qadd16x2

/-- VSUB's port (rule R165). -/
def vsubPort (s : State) : Port := s.binaryPort scalarSub qsub16x2

/-- VSHIFT's port (rule R167). -/
def vshiftPort (n : Int) (s : State) : Port :=
  s.unaryPort (fun x => shiftPipeline x n) (fun w => shiftPipeline16x2 w n)

/-- VABS's port: the scalar path and the packed path negate in different ways (rules R168, R226). -/
def vabsPort (s : State) : Port := s.unaryPort scalarAbs abs16x2

/-- The hidden state of a VMEAN: the port and the accumulator `ACC` (rule R38). -/
structure MeanRun where
  port : Port
  acc : Accumulator
  deriving DecidableEq, Repr

/-- The scalar line of VMEAN (rule R166). -/
def meanScalar (src i : Nat) (r : MeanRun) : MeanRun :=
  let x := r.port.readSingle (src + i)
  ⟨x.2, accumulate r.acc x.1⟩

/-- The packed line of VMEAN (rule R166). -/
def meanPacked (e : Endian) (src i : Nat) (r : MeanRun) : MeanRun :=
  let w := r.port.readPair e (src + i)
  ⟨w.2, accumulate (accumulate r.acc (lane0 w.1)) (lane1 w.1)⟩

/-- VMEAN's run over `LEN` elements, `ACC` from 0 (rules R38, R166). -/
def vmeanRun (s : State) : MeanRun :=
  unrolled s.platform.straps.packedEn s.count (meanPacked s.platform.straps.endian s.srcA) (meanScalar s.srcA)
    ⟨s.port, 0#48⟩

/-- VFILL `#value` (rule R162): no input, so no overlap rule. -/
def execVfill (v : Sample) (s : State) : Host.Outcome State Fault Refusal :=
  s.endMemoryCommand (.vfill v) (s.rangeValid s.dstA s.count) false s.dstA s.count (vfillPort v s).mem

/-- VCOPY (rule R163). -/
def execVcopy (s : State) : Host.Outcome State Fault Refusal := s.endUnary .vcopy (vcopyPort s)

/-- VADD (rule R164). -/
def execVadd (s : State) : Host.Outcome State Fault Refusal := s.endBinary .vadd (vaddPort s)

/-- VSUB (rule R165). -/
def execVsub (s : State) : Host.Outcome State Fault Refusal := s.endBinary .vsub (vsubPort s)

/-- VMEAN (rule R166): with `LEN = 0` nothing but `STATUS.CODE` is written; no cell of memory ever is. -/
def execVmean (s : State) : Host.Outcome State Fault Refusal :=
  if s.rangeValid s.srcA s.count then
    .next (if s.count = 0 then s.endWithMemory s.mem else s.endWithResult (meanWord (vmeanRun s).acc s.count))
  else .fault .invalidAddress

/-- VSHIFT `#shiftBits` (rule R167). -/
def execVshift (n : Int) (s : State) : Host.Outcome State Fault Refusal := s.endUnary (.vshift n) (vshiftPort n s)

/-- VABS (rule R168). -/
def execVabs (s : State) : Host.Outcome State Fault Refusal := s.endUnary .vabs (vabsPort s)

end Sys2Proof.Machine
end

