-- ==== Sys2Proof/Machine/Matrix.lean ====
section
/-! DEFINITION. The matrix transpose (42_matrix.md): the shape check, the stride walk of rules R203 and R204, and the
meaning of MTRANS. -/

namespace Sys2Proof.Machine

/-- The hidden state of the stride walk: the port and the running source and destination addresses (rules R38, R203). -/
structure Walk where
  port : Port
  ps : Nat
  pd : Nat
  deriving DecidableEq, Repr

/-- One source element to its destination, which then advances by the stride `rows` (rule R203). -/
def scatterSingle (rows : Nat) (w : Walk) : Walk :=
  let x := w.port.readSingle w.ps
  ⟨x.2.writeSingle w.pd x.1, w.ps + 1, w.pd + rows⟩

/-- One pair read and two strided single writes, element 0 first (rule R204). -/
def scatterPair (e : Endian) (rows : Nat) (w : Walk) : Walk :=
  let x := w.port.readPair e w.ps
  ⟨(x.2.writeSingle w.pd (e0 e x.1)).writeSingle (w.pd + rows) (e1 e x.1), w.ps + 2, w.pd + rows + rows⟩

/-- Source row `r`: the destination starts at its column, then the unrolled-loop pattern runs over the row's `cols`
elements (rules R203, R204, R220). -/
def walkRow (st : Straps) (rows cols dst r : Nat) (w : Walk) : Walk :=
  unrolled st.packedEn cols (fun _ => scatterPair st.endian rows) (fun _ => scatterSingle rows) { w with pd := dst + r }

/-- The whole walk, source rows top to bottom (rules R203, R204). -/
def mtransWalk (s : State) : Walk :=
  scalarLoop (walkRow s.platform.straps s.rows s.cols s.dstA) 0 s.rows ⟨s.port, s.srcA, s.dstA⟩

/-- The shape check fails: it is enabled and the declared destination is not the transposed source shape
(rules R202, R242). -/
def State.shapeMismatch (s : State) : Bool :=
  s.platform.straps.shapeCheckEn && (dimRows s.ops.ddim != s.cols || dimCols s.ops.ddim != s.rows)

/-- Every address of the transpose is valid (rules R72, R205). -/
def State.mtransValid (s : State) : Bool :=
  s.rangeValid s.srcA (s.rows * s.cols) && s.rangeValid s.dstA (s.rows * s.cols)

/-- Source and destination ranges intersect (rule R74 item 4, rule R205). -/
def State.mtransOverlap (s : State) : Bool := rangesMeet s.srcA s.dstA (s.rows * s.cols)

/-- MTRANS (rule R201): the shape check comes before every memory access (rule R246). -/
def execMtrans (s : State) : Host.Outcome State Fault Refusal :=
  if s.shapeMismatch then .next (s.raise .sizeMismatch)
  else s.endMemoryCommand .mtrans s.mtransValid s.mtransOverlap s.dstA (s.rows * s.cols) (mtransWalk s).port.mem

end Sys2Proof.Machine
end

