-- ==== Sys2Proof/Machine/Primitive.lean ====
section
/-! DEFINITION. The seven primitive commands (rules R134 to R141): operands from `OPA`, `OPB` and the immediate, result to
`RES`, no access to memory. -/

namespace Sys2Proof.Machine

/-- SAT `#bits` (rule R135). -/
def execSat (bits : Nat) (s : State) : Host.Outcome State Fault Refusal := .next (s.endWithResult (sat s.ops.opa bits))

/-- CLZ (rule R136). -/
def execClz (s : State) : Host.Outcome State Fault Refusal :=
  .next (s.endWithResult ((BitVec.ofNat 6 (clz s.ops.opa)).setWidth 32))

/-- PACK16 (rule R137): bits 31:16 of both operands are ignored. -/
def execPack16 (s : State) : Host.Outcome State Fault Refusal :=
  .next (s.endWithResult (pack16 s.platform.straps.endian (lane0 s.ops.opa) (lane0 s.ops.opb)))

/-- UNPK0 (rule R138). -/
def execUnpk0 (s : State) : Host.Outcome State Fault Refusal :=
  .next (s.endWithResult ((e0 s.platform.straps.endian s.ops.opa).signExtend 32))

/-- UNPK1 (rule R139). -/
def execUnpk1 (s : State) : Host.Outcome State Fault Refusal :=
  .next (s.endWithResult ((e1 s.platform.straps.endian s.ops.opa).signExtend 32))

/-- QADD16X2 (rule R140). -/
def execQadd16x2 (s : State) : Host.Outcome State Fault Refusal :=
  .next (s.endWithResult (qadd16x2 s.ops.opa s.ops.opb))

/-- QSUB16X2 (rule R141): `OPA` is the minuend. -/
def execQsub16x2 (s : State) : Host.Outcome State Fault Refusal :=
  .next (s.endWithResult (qsub16x2 s.ops.opa s.ops.opb))

end Sys2Proof.Machine
end

