-- ==== Sys2Proof/Machine/Dispatch.lean ====
section
/-! DEFINITION. The meaning of every command, one arm per constructor of `Instr`. -/

namespace Sys2Proof.Machine

def exec (i : Instr) (s : State) : Host.Outcome State Fault Refusal :=
  match i with
  | .sat bits => Sys2Proof.Machine.execSat bits s
  | .clz => Sys2Proof.Machine.execClz s
  | .pack16 => Sys2Proof.Machine.execPack16 s
  | .unpk0 => Sys2Proof.Machine.execUnpk0 s
  | .unpk1 => Sys2Proof.Machine.execUnpk1 s
  | .qadd16x2 => Sys2Proof.Machine.execQadd16x2 s
  | .qsub16x2 => Sys2Proof.Machine.execQsub16x2 s
  | .vfill value => Sys2Proof.Machine.execVfill value s
  | .vcopy => Sys2Proof.Machine.execVcopy s
  | .vadd => Sys2Proof.Machine.execVadd s
  | .vsub => Sys2Proof.Machine.execVsub s
  | .vmean => Sys2Proof.Machine.execVmean s
  | .vshift shiftBits => Sys2Proof.Machine.execVshift shiftBits s
  | .vabs => Sys2Proof.Machine.execVabs s
  | .mtrans => Sys2Proof.Machine.execMtrans s

end Sys2Proof.Machine
end

