-- ==== Sys2Proof/Machine/HostPort.lean ====
section
/-! DEFINITION. The moves of the host port: register accesses (rule R41), `Issue` (rules R15, R100), the host's own
accesses to memory between commands (rule R15 item 4), and reset (rules R270, R271). -/

namespace Sys2Proof.Machine

/-- `HostReadReg`: the value a register reads as (rule R41). -/
def State.readHostReg (s : State) (r : HostReg) : Word :=
  match r with
  | .srca => s.ops.srca
  | .srcb => s.ops.srcb
  | .dst => s.ops.dst
  | .len => s.ops.len
  | .sdim => s.ops.sdim
  | .ddim => s.ops.ddim
  | .opa => s.ops.opa
  | .opb => s.ops.opb
  | .res => s.res
  | .status => statusWord s.code
  | .config => configWord s.platform.straps
  | .cmd => 0#32
  | .reserved => 0#32

/-- `Issue(c)`: decode and execute, or raise `IllegalCommand` (rules R15, R95, R100, R243). -/
def State.issue (s : State) (c : Word) : Host.Outcome State Fault Refusal :=
  match decode c with
  | .ok i => exec i s
  | .error _ => .next (s.raise .illegalCommand)

/-- `HostWriteReg`: operand registers take the value, a write of `CMD` issues it, every other write is ignored
(rules R34, R35, R41). -/
def State.writeHostReg (s : State) (r : HostReg) (v : Word) : Host.Outcome State Fault Refusal :=
  match r with
  | .srca => .next { s with ops := { s.ops with srca := v } }
  | .srcb => .next { s with ops := { s.ops with srcb := v } }
  | .dst => .next { s with ops := { s.ops with dst := v } }
  | .len => .next { s with ops := { s.ops with len := v } }
  | .sdim => .next { s with ops := { s.ops with sdim := v } }
  | .ddim => .next { s with ops := { s.ops with ddim := v } }
  | .opa => .next { s with ops := { s.ops with opa := v } }
  | .opb => .next { s with ops := { s.ops with opb := v } }
  | .res => .next s
  | .status => .next s
  | .config => .next s
  | .cmd => s.issue v
  | .reserved => .next s

/-- A value returned to the host. -/
def State.deliver (s : State) (v : HostValue) : State := { s with hostOut := v :: s.hostOut }

/-- A host access to Sample address `a`: the cell must exist (rules R60, R61). -/
def State.atCell (s : State) (a : Nat) (t : State) : Host.Outcome State Fault Refusal :=
  if a < s.platform.memSamples.val then .next t else .fault .hostInvalidAddress

/-- Reset between commands: operand registers, `RES` and `STATUS.CODE` to 0, memory untouched (rules R40, R270). -/
def State.resetUnit (s : State) : State := { s with ops := OperandRegs.zero, res := 0#32, code := conditionCode .success }

/-- The output range of a command: base address and number of cells, 0 cells for a command that writes no memory
(rules R31, R161, R162 to R168, R201, R202). -/
def outputRange (i : Instr) (s : State) : Nat × Nat :=
  match i with
  | .sat _ => (0, 0)
  | .clz => (0, 0)
  | .pack16 => (0, 0)
  | .unpk0 => (0, 0)
  | .unpk1 => (0, 0)
  | .qadd16x2 => (0, 0)
  | .qsub16x2 => (0, 0)
  | .vfill _ => (s.dstA, s.count)
  | .vcopy => (s.dstA, s.count)
  | .vadd => (s.dstA, s.count)
  | .vsub => (s.dstA, s.count)
  | .vmean => (0, 0)
  | .vshift _ => (s.dstA, s.count)
  | .vabs => (s.dstA, s.count)
  | .mtrans => if s.shapeMismatch then (s.dstA, 0) else (s.dstA, s.rows * s.cols)

/-- The memory when reset abandoned a command: each cell of the output range is old or new, by a free value (rule R271,
log entry 7). -/
def abandonedMemory (i : Instr) (s t : State) : Mem :=
  writeRange
    (fun a => if Config.resetCellIsNew (s.circumstances i) a then t.mem.read a else s.mem.read a)
    (outputRange i s).1 (outputRange i s).2 s.mem

/-- The state when reset abandoned command `i`, whose end state would have been `t`: the registers at their reset values,
the output cells old or new (rule R271). -/
def State.abandon (s : State) (i : Instr) (t : State) : State :=
  { s with
    ops := OperandRegs.zero
    res := 0#32
    code := conditionCode .success
    mem := abandonedMemory i s t
    draws := t.draws + 1 }

/-- Reset while the command of word `c` runs (rule R271). -/
def State.resetDuring (s : State) (c : Word) : Host.Outcome State Fault Refusal :=
  match decode c with
  | .error _ => .next s.resetUnit
  | .ok i =>
    match exec i s with
    | .next t => .next (s.abandon i t)
    | .fault f => .fault f
    | .refused r => .refused r

/-- One host move (rule R15). -/
def State.move (s : State) (m : HostMove) : Host.Outcome State Fault Refusal :=
  match m with
  | .writeReg i v => s.writeHostReg (hostReg i) v
  | .readReg i => .next (s.deliver (.word (s.readHostReg (hostReg i))))
  | .issue c => s.issue c
  | .pokeCell a v => s.atCell a.toNat { s with mem := s.mem.write a.toNat v }
  | .peekCell a => s.atCell a.toNat (s.deliver (.cell (s.mem.read a.toNat)))
  | .pokeByte b v => s.atCell (b / 2) { s with mem := s.mem.writeByte s.platform.straps.endian b v }
  | .peekByte b => s.atCell (b / 2) (s.deliver (.byte (s.mem.readByte s.platform.straps.endian b)))
  | .reset => .next s.resetUnit
  | .resetDuring c => s.resetDuring c

end Sys2Proof.Machine
end

