-- ==== Sys2Proof/Machine/Step.lean ====
section
/-! DEFINITION. One step of the machine: the next move of the host, executed to its end (rules R15, R36). -/

namespace Sys2Proof.Machine

/-- The next host move is taken from `hostIn` and executed. With no move to take the unit waits and nothing changes
(rule R36; log entry 4). -/
def step (s : State) : Host.Outcome State Fault Refusal :=
  match s.hostIn with
  | [] => .next s
  | m :: rest => State.move { s with hostIn := rest } m

/-- The host's next move is to issue the command word `w`, given in `nbits` bits (rules R15, R90; log entry 5). -/
def State.withFetchWord (s : State) (nbits w : Nat) : State :=
  { s with hostIn := .issue (BitVec.ofNat 32 (w % 2 ^ nbits)) :: s.hostIn }

end Sys2Proof.Machine
end

