-- ==== Sys2Proof/Machine/Accesses.lean ====
section
/-! DEFINITION. The accesses a command makes on the memory port, from the same runs the meanings use (rules R67, R69, R76,
R279). The order is that of the spec's pseudocode, one admissible order among those rule R76 leaves open. -/

namespace Sys2Proof.Machine

/-- The accesses of a command, first one first. A primitive command makes none (rule R134), nor does an MTRANS that fails
the shape check (rule R202). -/
def accessLog (i : Instr) (s : State) : List Access :=
  match i with
  | .sat _ => []
  | .clz => []
  | .pack16 => []
  | .unpk0 => []
  | .unpk1 => []
  | .qadd16x2 => []
  | .qsub16x2 => []
  | .vfill v => (vfillPort v s).log.reverse
  | .vcopy => (vcopyPort s).log.reverse
  | .vadd => (vaddPort s).log.reverse
  | .vsub => (vsubPort s).log.reverse
  | .vmean => (vmeanRun s).port.log.reverse
  | .vshift n => (vshiftPort n s).log.reverse
  | .vabs => (vabsPort s).log.reverse
  | .mtrans => if s.shapeMismatch then [] else (mtransWalk s).port.log.reverse

/-- The cells an access reads (rules R62, R63). -/
def Access.reads : Access → List Nat
  | .readSingle a => [a]
  | .readPair a => [a, a + 1]
  | .writeSingle _ => []
  | .writePair _ => []

/-- The cells an access writes (rules R62, R63). -/
def Access.writes : Access → List Nat
  | .readSingle _ => []
  | .readPair _ => []
  | .writeSingle a => [a]
  | .writePair a => [a, a + 1]

/-- Single reads, pair reads, single writes and pair writes of a log, in that order (rule R279). -/
structure AccessCounts where
  singleReads : Nat
  pairReads : Nat
  singleWrites : Nat
  pairWrites : Nat
  deriving DecidableEq, Repr

/-- The counts with one more access. -/
def AccessCounts.add (c : AccessCounts) (a : Access) : AccessCounts :=
  match a with
  | .readSingle _ => { c with singleReads := c.singleReads + 1 }
  | .readPair _ => { c with pairReads := c.pairReads + 1 }
  | .writeSingle _ => { c with singleWrites := c.singleWrites + 1 }
  | .writePair _ => { c with pairWrites := c.pairWrites + 1 }

/-- How many accesses of each kind a log holds. -/
def countAccesses (log : List Access) : AccessCounts := log.foldl AccessCounts.add ⟨0, 0, 0, 0⟩

end Sys2Proof.Machine
end

