-- ==== Sys2Proof/Safety.lean ====
section
/-! DEFINITION. The terms the claims use: the preconditions of a command (rules R72, R74), the invariant of the machine,
and the "End state" of each command's rule as plain functions of the state before it (rules R135 to R141, R162 to R168,
R201). -/

namespace Sys2Proof.Safety

open Sys2Proof.Machine

/-- Every address of `[base, base + n)` is valid, or the range is empty (rules R61, R72). -/
def RangeOk (s : State) (base n : Nat) : Prop := n = 0 ∨ base + n ≤ s.platform.memSamples.val

/-- The output range is identical to the input range or disjoint from it (rule R74 items 1 and 2). -/
def Lockstep (out inp n : Nat) : Prop := out = inp ∨ out + n ≤ inp ∨ inp + n ≤ out

/-- The two ranges do not intersect (rule R74 item 4). -/
def RangesDisjoint (a b n : Nat) : Prop := n = 0 ∨ a + n ≤ b ∨ b + n ≤ a

/-- The two 16-bit dimensions of the declared destination are those of the transposed source (rule R202). -/
abbrev ShapesAgree (s : State) : Prop :=
  s.ops.ddim.toNat % 65536 = s.ops.sdim.toNat / 65536 ∧ s.ops.ddim.toNat / 65536 = s.ops.sdim.toNat % 65536

/-- MTRANS goes on to transpose: the check is disabled or it passes (rule R202). -/
abbrev ShapeAccepted (s : State) : Prop := s.platform.straps.shapeCheckEn = true → ShapesAgree s

/-- Every address the command accesses is valid (rule R72). An MTRANS that fails the shape check accesses none. -/
def AddressesOk (i : Instr) (s : State) : Prop :=
  match i with
  | .sat _ => True
  | .clz => True
  | .pack16 => True
  | .unpk0 => True
  | .unpk1 => True
  | .qadd16x2 => True
  | .qsub16x2 => True
  | .vfill _ => RangeOk s s.dstA s.count
  | .vcopy => RangeOk s s.srcA s.count ∧ RangeOk s s.dstA s.count
  | .vadd => RangeOk s s.srcA s.count ∧ RangeOk s s.srcB s.count ∧ RangeOk s s.dstA s.count
  | .vsub => RangeOk s s.srcA s.count ∧ RangeOk s s.srcB s.count ∧ RangeOk s s.dstA s.count
  | .vmean => RangeOk s s.srcA s.count
  | .vshift _ => RangeOk s s.srcA s.count ∧ RangeOk s s.dstA s.count
  | .vabs => RangeOk s s.srcA s.count ∧ RangeOk s s.dstA s.count
  | .mtrans => ShapeAccepted s → RangeOk s s.srcA (s.rows * s.cols) ∧ RangeOk s s.dstA (s.rows * s.cols)

/-- The command's output overlaps no input in a forbidden way (rule R74). -/
def OverlapOk (i : Instr) (s : State) : Prop :=
  match i with
  | .sat _ => True
  | .clz => True
  | .pack16 => True
  | .unpk0 => True
  | .unpk1 => True
  | .qadd16x2 => True
  | .qsub16x2 => True
  | .vfill _ => True
  | .vcopy => Lockstep s.dstA s.srcA s.count
  | .vadd => Lockstep s.dstA s.srcA s.count ∧ Lockstep s.dstA s.srcB s.count
  | .vsub => Lockstep s.dstA s.srcA s.count ∧ Lockstep s.dstA s.srcB s.count
  | .vmean => True
  | .vshift _ => Lockstep s.dstA s.srcA s.count
  | .vabs => Lockstep s.dstA s.srcA s.count
  | .mtrans => ShapeAccepted s → RangesDisjoint s.srcA s.dstA (s.rows * s.cols)

/-- The command's preconditions (rules R72, R74, R160, R205): outside them the spec calls it `UNDEFINED`. -/
def Preconditions (i : Instr) (s : State) : Prop := AddressesOk i s ∧ OverlapOk i s

/-- The invariant: memory is in canonical form and lists no cell that does not exist (rules R60, R61), and the status code
3 is never there (rules R32, R241). -/
structure MachineInv (s : State) : Prop where
  memCanonical : s.mem.wf
  memExists : ∀ p ∈ s.mem, p.1 < s.platform.memSamples.val
  codeProduced : s.code ≠ 3#2

/-- The integer `z` clamped to the signed 16-bit range (rules R8, R121). -/
def clamp16 (z : Int) : Int := max (-32768) (min 32767 z)

/-- The exact sum of the `n` Samples from `base` (rule R166). -/
def exactSum (m : Mem) (base n : Nat) : Int := ((List.range n).map fun i => (m.read (base + i)).toInt).sum

/-- The cell at `a` after a vector command whose output element `i` is `f i`: `f` inside `[DST, DST + LEN)`, the old
content outside. -/
def vectorEnd (s : State) (f : Nat → Sample) (a : Nat) : Sample :=
  if s.dstA ≤ a ∧ a < s.dstA + s.count then f (a - s.dstA) else s.mem.read a

/-- The cell at `a` after a transpose: destination element `k = c*R + r` is source element `r*C + c` (rule R201). -/
def transposeEnd (s : State) (a : Nat) : Sample :=
  if s.dstA ≤ a ∧ a < s.dstA + s.rows * s.cols then
    s.mem.read (s.srcA + ((a - s.dstA) % s.rows) * s.cols + (a - s.dstA) / s.rows)
  else s.mem.read a

/-- The cells a command reads, each as often as its rule reads it (rules R69, R76): the elements of its input Vectors, or
the source Matrix of an MTRANS that passes the shape check. -/
def inputCells (i : Instr) (s : State) : List Nat :=
  match i with
  | .sat _ => []
  | .clz => []
  | .pack16 => []
  | .unpk0 => []
  | .unpk1 => []
  | .qadd16x2 => []
  | .qsub16x2 => []
  | .vfill _ => []
  | .vcopy => List.range' s.srcA s.count
  | .vadd => List.range' s.srcA s.count ++ List.range' s.srcB s.count
  | .vsub => List.range' s.srcA s.count ++ List.range' s.srcB s.count
  | .vmean => List.range' s.srcA s.count
  | .vshift _ => List.range' s.srcA s.count
  | .vabs => List.range' s.srcA s.count
  | .mtrans => if ShapeAccepted s then List.range' s.srcA (s.rows * s.cols) else []

/-- The input cells the output cell at `a` is made from (rules R162 to R168, R201). -/
def sourcesOf (i : Instr) (s : State) (a : Nat) : List Nat :=
  match i with
  | .sat _ => []
  | .clz => []
  | .pack16 => []
  | .unpk0 => []
  | .unpk1 => []
  | .qadd16x2 => []
  | .qsub16x2 => []
  | .vfill _ => []
  | .vcopy => [s.srcA + (a - s.dstA)]
  | .vadd => [s.srcA + (a - s.dstA), s.srcB + (a - s.dstA)]
  | .vsub => [s.srcA + (a - s.dstA), s.srcB + (a - s.dstA)]
  | .vmean => []
  | .vshift _ => [s.srcA + (a - s.dstA)]
  | .vabs => [s.srcA + (a - s.dstA)]
  | .mtrans => [s.srcA + ((a - s.dstA) % s.rows) * s.cols + (a - s.dstA) / s.rows]

/-- Two register files agree on every register the command's rule names (rules R22 to R29, R134, R160, R201). `DDIM` is
named only when the shape check is enabled (rule R27). -/
def NamedRegistersAgree (i : Instr) (st : Straps) (x y : OperandRegs) : Prop :=
  match i with
  | .sat _ => x.opa = y.opa
  | .clz => x.opa = y.opa
  | .pack16 => x.opa = y.opa ∧ x.opb = y.opb
  | .unpk0 => x.opa = y.opa
  | .unpk1 => x.opa = y.opa
  | .qadd16x2 => x.opa = y.opa ∧ x.opb = y.opb
  | .qsub16x2 => x.opa = y.opa ∧ x.opb = y.opb
  | .vfill _ => x.dst = y.dst ∧ x.len = y.len
  | .vcopy => x.srca = y.srca ∧ x.dst = y.dst ∧ x.len = y.len
  | .vadd => x.srca = y.srca ∧ x.srcb = y.srcb ∧ x.dst = y.dst ∧ x.len = y.len
  | .vsub => x.srca = y.srca ∧ x.srcb = y.srcb ∧ x.dst = y.dst ∧ x.len = y.len
  | .vmean => x.srca = y.srca ∧ x.len = y.len
  | .vshift _ => x.srca = y.srca ∧ x.dst = y.dst ∧ x.len = y.len
  | .vabs => x.srca = y.srca ∧ x.dst = y.dst ∧ x.len = y.len
  | .mtrans =>
    x.srca = y.srca ∧ x.dst = y.dst ∧ x.sdim = y.sdim ∧ (st.shapeCheckEn = true → x.ddim = y.ddim)

/-- What the command's rule leaves in the cell at `a`, from the state before it. -/
def endCell (i : Instr) (s : State) (a : Nat) : Sample :=
  match i with
  | .sat _ => s.mem.read a
  | .clz => s.mem.read a
  | .pack16 => s.mem.read a
  | .unpk0 => s.mem.read a
  | .unpk1 => s.mem.read a
  | .qadd16x2 => s.mem.read a
  | .qsub16x2 => s.mem.read a
  | .vfill v => vectorEnd s (fun _ => v) a
  | .vcopy => vectorEnd s (fun k => s.mem.read (s.srcA + k)) a
  | .vadd => vectorEnd s (fun k => qadd16 (s.mem.read (s.srcA + k)) (s.mem.read (s.srcB + k))) a
  | .vsub => vectorEnd s (fun k => qsub16 (s.mem.read (s.srcA + k)) (s.mem.read (s.srcB + k))) a
  | .vmean => s.mem.read a
  | .vshift n => vectorEnd s (fun k => shift16 (s.mem.read (s.srcA + k)) n) a
  | .vabs => vectorEnd s (fun k => abs16 (s.mem.read (s.srcA + k))) a
  | .mtrans => if ShapeAccepted s then transposeEnd s a else s.mem.read a

/-- What the command's rule leaves in `RES` (rule R31). -/
def endResult (i : Instr) (s : State) : Word :=
  match i with
  | .sat bits => sat s.ops.opa bits
  | .clz => (BitVec.ofNat 6 (clz s.ops.opa)).setWidth 32
  | .pack16 => pack16 s.platform.straps.endian (lane0 s.ops.opa) (lane0 s.ops.opb)
  | .unpk0 => (e0 s.platform.straps.endian s.ops.opa).signExtend 32
  | .unpk1 => (e1 s.platform.straps.endian s.ops.opa).signExtend 32
  | .qadd16x2 => qadd16x2 s.ops.opa s.ops.opb
  | .qsub16x2 => qsub16x2 s.ops.opa s.ops.opb
  | .vfill _ => s.res
  | .vcopy => s.res
  | .vadd => s.res
  | .vsub => s.res
  | .vmean =>
    if s.count = 0 then s.res
    else (sat16 ((exactSum s.mem s.srcA s.count).tdiv s.count)).signExtend 32
  | .vshift _ => s.res
  | .vabs => s.res
  | .mtrans => s.res

/-- What the command's rule leaves in `STATUS.CODE` (rules R32, R241, R242). -/
def endCode (i : Instr) (s : State) : BitVec 2 := if i = .mtrans ∧ ¬ ShapeAccepted s then 1#2 else 0#2

/-- The strap `PACKED_EN` set to `b`, everything else the same. -/
def withPacked (b : Bool) (s : State) : State :=
  { s with platform := { s.platform with straps := { s.platform.straps with packedEn := b } } }

/-- The strap `ENDIAN` set to `e`, everything else the same. -/
def withEndian (e : Endian) (s : State) : State :=
  { s with platform := { s.platform with straps := { s.platform.straps with endian := e } } }

/-- The commands of 40_primitives.md Part B. -/
def isPrimitive : Instr → Bool
  | .sat _ => true
  | .clz => true
  | .pack16 => true
  | .unpk0 => true
  | .unpk1 => true
  | .qadd16x2 => true
  | .qsub16x2 => true
  | .vfill _ => false
  | .vcopy => false
  | .vadd => false
  | .vsub => false
  | .vmean => false
  | .vshift _ => false
  | .vabs => false
  | .mtrans => false

/-- The seven commands of 41_vector.md. -/
def isVector : Instr → Bool
  | .sat _ => false
  | .clz => false
  | .pack16 => false
  | .unpk0 => false
  | .unpk1 => false
  | .qadd16x2 => false
  | .qsub16x2 => false
  | .vfill _ => true
  | .vcopy => true
  | .vadd => true
  | .vsub => true
  | .vmean => true
  | .vshift _ => true
  | .vabs => true
  | .mtrans => false

end Sys2Proof.Safety
end

