-- ==== Sys2Proof/Certificates/Slice0/Obligations.lean ====
section
/-! DEFINITION. The statements for the provers, from the numbered rules of spec/. A statement whose Lean rests on a choice of
the model says so in its docstring and names the log entry. -/

open Sys2Proof Sys2Proof.Machine Sys2Proof.Safety

/-! ### Decoding and encoding (30_encoding.md) -/

/-- Rule R101: decoding the word of a command whose immediate is in range gives the command back; encoding what a legal
word decodes to gives the word back, with its immediate in range; the word of each command is `(imm16 << 16) | opcode`. -/
def Obligations.DecodeAndEncodeAgree : Prop :=
  (∀ i : Instr, i.wellFormed = true → decode (encode i) = .ok i) ∧
  (∀ (c : Word) (i : Instr), decode c = .ok i → encode i = c ∧ i.wellFormed = true) ∧
  (∀ bits, bits ≤ 65535 → (encode (.sat bits)).toNat = bits * 65536 + 0x01) ∧
  (∀ v : Sample, (encode (.vfill v)).toNat = v.toNat * 65536 + 0x10) ∧
  (∀ n : Int, -32768 ≤ n → n ≤ 32767 → ((encode (.vshift n)).toNat : Int) = n % 65536 * 65536 + 0x15) ∧
  encode .clz = 0x00000002#32 ∧ encode .pack16 = 0x00000003#32 ∧ encode .unpk0 = 0x00000004#32 ∧
  encode .unpk1 = 0x00010004#32 ∧ encode .qadd16x2 = 0x00000005#32 ∧ encode .qsub16x2 = 0x00000006#32 ∧
  encode .vcopy = 0x00000011#32 ∧ encode .vadd = 0x00000012#32 ∧ encode .vsub = 0x00000013#32 ∧
  encode .vmean = 0x00000014#32 ∧ encode .vabs = 0x00000016#32 ∧ encode .mtrans = 0x00000020#32

/-- Rule R94: a word decodes exactly when a row of the opcode map selects it, to the command of that row, and no word is
selected by two rows. -/
def Obligations.DecodeFollowsOpcodeMap : Prop :=
  (∀ c : Word, (∃ i, decode c = .ok i) ↔ ∃ r ∈ opcodeMap, r.selects c = true) ∧
  (∀ (c : Word) (i : Instr), decode c = .ok i → ∀ r ∈ opcodeMap, r.selects c = true → r.mnemonic = i.mnemonic) ∧
  ∀ (c : Word), ∀ r ∈ opcodeMap, ∀ r' ∈ opcodeMap, r.selects c = true → r'.selects c = true → r = r'

/-- The count rule R95 derives from the opcode map: 196620 legal words. -/
def Obligations.LegalWordsNumber196620 : Prop := Nat.card { c : Word // ∃ i, decode c = .ok i } = 196620

/-- Words of the table of 95_test_vectors.md section 2.8, one or more of each family, and illegal ones (rules R95, R98). -/
def Obligations.TableWordsDecode : Prop :=
  decode 0x00100001#32 = .ok (.sat 16) ∧ decode 0xFFFF0001#32 = .ok (.sat 65535) ∧
  decode 0x00000002#32 = .ok .clz ∧ decode 0x00010004#32 = .ok .unpk1 ∧
  decode 0xFFFE0010#32 = .ok (.vfill 0xFFFE#16) ∧ decode 0x80000015#32 = .ok (.vshift (-32768)) ∧
  decode 0x00000014#32 = .ok .vmean ∧ decode 0x00000020#32 = .ok .mtrans ∧
  decode 0x00000000#32 = .error .opcode ∧ decode 0x00010002#32 = .error .immediate ∧
  decode 0x00020004#32 = .error .selector ∧ decode 0x00000120#32 = .error .zeroField

/-! ### A step, the host port and reset (00_scope.md, 10_state.md, 60_exceptions.md, 70_reset_and_hazards.md) -/

/-- Rules R15, R34: when the host's next move delivers a legal word, by `Issue` or by a write of index 11, the step is the
execution of the decoded command on the state with that move taken. -/
def Obligations.StepRunsDecodedCommand : Prop :=
  ∀ (s : State) (rest : List HostMove) (c : Word) (i : Instr),
    (s.hostIn = .issue c :: rest ∨ s.hostIn = .writeReg 11 c :: rest) → decode c = .ok i →
      step s = exec i { s with hostIn := rest }

/-- Rule R243: issuing a word that matches no row of the opcode map writes `STATUS.CODE <- 2` and changes nothing else; the
next move, whatever it is, then runs on that state. -/
def Obligations.IllegalWordRaisesIllegalCommand : Prop :=
  ∀ (s : State) (rest : List HostMove) (c : Word), s.hostIn = .issue c :: rest →
    (∀ r ∈ opcodeMap, r.selects c = false) → step s = .next { s with hostIn := rest, code := 2#2 }

/-- Rule R41: what a host read returns at each index and what a host write does at each index. A value read is delivered to
the host and nothing else changes. -/
def Obligations.HostPortReadsAndWrites : Prop :=
  (∀ (s : State) (rest : List HostMove) (i : Fin 16), s.hostIn = .readReg i :: rest →
    ∃ v, step s = .next { s with hostIn := rest, hostOut := .word v :: s.hostOut } ∧
      (i.val < 8 → s.ops.toList[i.val]? = some v) ∧ (i.val = 8 → v = s.res) ∧
      (i.val = 9 → v.toNat = s.code.toNat) ∧
      (i.val = 10 → v.toNat = s.platform.straps.packedEn.toNat +
        2 * (decide (s.platform.straps.endian = .big)).toNat + 4 * s.platform.straps.shapeCheckEn.toNat) ∧
      (11 ≤ i.val → v = 0#32)) ∧
  ∀ (s : State) (rest : List HostMove) (i : Fin 16) (v : Word), s.hostIn = .writeReg i v :: rest →
    (i.val < 8 → ∃ t, step s = .next t ∧ t = { s with hostIn := rest, ops := t.ops } ∧
      t.ops.toList = s.ops.toList.set i.val v) ∧
    (i.val = 11 → step s = State.issue { s with hostIn := rest } v) ∧
    (8 ≤ i.val → i.val ≠ 11 → step s = .next { s with hostIn := rest })

/-- Rule R15 item 4 with rules R60, R61: between commands the host sets and reads a cell that exists; a set changes that
cell only. A cell that does not exist stops the model (log entry 8). -/
def Obligations.HostSetsAndReadsCells : Prop :=
  ∀ (s : State) (rest : List HostMove) (a : Word) (v : Sample), MachineInv s →
    (a.toNat < s.platform.memSamples.val → s.hostIn = .pokeCell a v :: rest →
      ∃ t, step s = .next t ∧ t = { s with hostIn := rest, mem := t.mem } ∧
        ∀ b, t.mem.read b = if b = a.toNat then v else s.mem.read b) ∧
    (a.toNat < s.platform.memSamples.val → s.hostIn = .peekCell a :: rest →
      step s = .next { s with hostIn := rest, hostOut := .cell (s.mem.read a.toNat) :: s.hostOut }) ∧
    (s.platform.memSamples.val ≤ a.toNat → s.hostIn = .pokeCell a v :: rest ∨ s.hostIn = .peekCell a :: rest →
      step s = .fault .hostInvalidAddress)

/-- The byte view of rule R65 at the host port: between commands the host sets and reads one byte of a cell that exists; a
set changes that byte only. A byte of a cell that does not exist stops the model (log entry 8). -/
def Obligations.HostSetsAndReadsBytes : Prop :=
  ∀ (s : State) (rest : List HostMove) (b : Nat) (v : Byte), MachineInv s →
    (b / 2 < s.platform.memSamples.val → s.hostIn = .pokeByte b v :: rest →
      ∃ t, step s = .next t ∧ t = { s with hostIn := rest, mem := t.mem } ∧
        ∀ b', t.mem.readByte s.platform.straps.endian b' =
          if b' = b then v else s.mem.readByte s.platform.straps.endian b') ∧
    (b / 2 < s.platform.memSamples.val → s.hostIn = .peekByte b :: rest →
      step s = .next { s with
        hostIn := rest, hostOut := .byte (s.mem.readByte s.platform.straps.endian b) :: s.hostOut }) ∧
    (s.platform.memSamples.val ≤ b / 2 → s.hostIn = .pokeByte b v :: rest ∨ s.hostIn = .peekByte b :: rest →
      step s = .fault .hostInvalidAddress)

/-- Rule R40: the values after reset, on any platform and with any initial memory; `CONFIG` shows the straps and `CMD` reads
0. `State.reset` is one such state (its platform and its empty memory are the model's choice, log entries 2 and 3). -/
def Obligations.ResetStateValues : Prop :=
  (∀ (p : Platform) (m : Mem),
    (State.resetOn p m).ops.toList = List.replicate 8 0#32 ∧ (State.resetOn p m).res = 0#32 ∧
    (State.resetOn p m).code = 0#2 ∧ (State.resetOn p m).mem = m ∧
    (State.resetOn p m).readHostReg .config = configWord p.straps ∧ (State.resetOn p m).readHostReg .cmd = 0#32) ∧
  ∃ p m, State.reset = State.resetOn p m

/-- Rule R270: a reset between commands zeroes the operand registers, `RES` and `STATUS.CODE`, leaves memory, straps and the
host's later moves as they are. -/
def Obligations.ResetMoveZeroesRegisters : Prop :=
  ∀ (s : State) (rest : List HostMove), s.hostIn = .reset :: rest →
    ∃ t, step s = .next t ∧ t.ops.toList = List.replicate 8 0#32 ∧ t.res = 0#32 ∧ t.code = 0#2 ∧ t.mem = s.mem ∧
      t.platform = s.platform ∧ t.hostIn = rest ∧ t.hostOut = s.hostOut

/-- Rule R271: reset while a command runs leaves the registers at their reset values, every cell outside the command's
output range as it was, and every cell inside it old or as the command would have written it. Which of the two is a free
value (log entry 7): the statement holds for every choice. -/
def Obligations.ResetDuringCommandLeavesOldOrNewCells : Prop :=
  ∀ (s t : State) (rest : List HostMove) (c : Word) (i : Instr), MachineInv s → s.hostIn = .resetDuring c :: rest →
    decode c = .ok i → exec i { s with hostIn := rest } = .next t →
      ∃ u, step s = .next u ∧ u.ops.toList = List.replicate 8 0#32 ∧ u.res = 0#32 ∧ u.code = 0#2 ∧
        u.platform = s.platform ∧ u.hostIn = rest ∧ u.hostOut = s.hostOut ∧
        ∀ a, (a < (outputRange i s).1 ∨ (outputRange i s).1 + (outputRange i s).2 ≤ a → u.mem.read a = s.mem.read a) ∧
          (u.mem.read a = s.mem.read a ∨ u.mem.read a = t.mem.read a)

/-! ### The invariant and the whole-machine rules -/

/-- The invariant holds right after reset, and on every platform with a canonical initial memory of existing cells. -/
def Obligations.InvariantHoldsAfterReset : Prop :=
  MachineInv State.reset ∧
  ∀ (p : Platform) (m : Mem), m.wf → (∀ q ∈ m, q.1 < p.memSamples.val) → MachineInv (State.resetOn p m)

/-- Every step keeps the invariant: memory stays canonical and lists only cells that exist (rules R60, R61), and
`STATUS.CODE` is never 3 (rules R32, R241). -/
def Obligations.EveryStepKeepsInvariant : Prop := ∀ s t : State, MachineInv s → step s = .next t → MachineInv t

/-- Rule R42: the straps and `MEM_SAMPLES` are never written by anything. -/
def Obligations.StrapsAreNeverWritten : Prop := ∀ s t : State, step s = .next t → t.platform = s.platform

/-- Rule R30: no command writes an operand register, legal or not, successful or not. -/
def Obligations.NoCommandWritesOperandRegisters : Prop :=
  ∀ (s t : State) (c : Word), s.issue c = .next t → t.ops = s.ops

/-- Rule R20 (written by: host only) with rule R270: a step that changes an operand register took a host write of an index
below 8, or a reset. -/
def Obligations.OnlyHostWritesAndResetsChangeOperands : Prop :=
  ∀ s t : State, step s = .next t → t.ops ≠ s.ops →
    (∃ i v rest, s.hostIn = .writeReg i v :: rest ∧ i.val < 8) ∨ (∃ rest, s.hostIn = .reset :: rest) ∨
      ∃ c rest, s.hostIn = .resetDuring c :: rest

/-- Rule R31: what each command leaves in `RES` (unchanged for a command that returns nothing, VMEAN with `LEN = 0` among
them), that an illegal word leaves it, and that a host write of index 8 is ignored. It holds of the runs of rule R74's
undefined overlaps too (U3; that they run on is log entry 6). -/
def Obligations.ResultRegisterIsWrittenByReturningCommandsOnly : Prop :=
  (∀ (i : Instr) (s t : State), exec i s = .next t → t.res = endResult i s) ∧
  (∀ (s t : State) (c : Word) (r : Illegal), decode c = .error r → s.issue c = .next t → t.res = s.res) ∧
  ∀ (s : State) (rest : List HostMove) (v : Word), s.hostIn = .writeReg 8 v :: rest →
    step s = .next { s with hostIn := rest }

/-- Rule R241: the code every issued word ends with: 2 for an illegal word, 1 for an MTRANS whose enabled shape check fails,
0 for every other command; never 3. An undefined overlap of rule R74 runs on and ends with 0 too (U3; log entry 6). -/
def Obligations.StatusCodeOfEveryCommand : Prop :=
  ∀ (s t : State) (c : Word), s.issue c = .next t →
    (∀ r, decode c = .error r → t.code = 2#2) ∧
    (∀ i, decode c = .ok i → i = .mtrans → ¬ ShapeAccepted s → t.code = 1#2) ∧
    (∀ i, decode c = .ok i → (i = .mtrans → ShapeAccepted s) → t.code = 0#2) ∧ t.code ≠ 3#2

/-- Rule R39: a command changes memory only in its output range. It holds of the runs of rule R74's undefined overlaps
too (U3, rule R76; that they run on is log entry 6). -/
def Obligations.MemoryChangesOnlyInOutputRange : Prop :=
  ∀ (i : Instr) (s t : State) (a : Nat), exec i s = .next t →
    (a < (outputRange i s).1 ∨ (outputRange i s).1 + (outputRange i s).2 ≤ a) → t.mem.read a = s.mem.read a

/-- Rules R22 to R29, R134, R160, R201: registers a command's rule does not name are ignored, whatever they hold. Outside
the preconditions the outcome is undefined and nothing is said. -/
def Obligations.CommandsReadOnlyTheRegistersTheirRuleNames : Prop :=
  ∀ (i : Instr) (s t : State) (x : OperandRegs), NamedRegistersAgree i s.platform.straps s.ops x →
    Preconditions i s → exec i s = .next t → exec i { s with ops := x } = .next { t with ops := x }

/-- Every command completes when every address it accesses is valid, stops with `invalidAddress` exactly when one is not
(93_implementation_defined.md U1; rule R72), and is never refused (rule R228: every command ends). The first clause covers
the forbidden overlaps of rule R74 too: they are undefined (93_implementation_defined.md U3), and that they complete with
free output cells, where U3 prefers a fault, is the model's choice (log entry 6). That an invalid address faults before the
overlap is looked at is log entry 12. -/
def Obligations.CommandsCompleteExactlyOnValidAddresses : Prop :=
  ∀ (i : Instr) (s : State), (AddressesOk i s → ∃ t, exec i s = .next t) ∧
    (¬ AddressesOk i s → exec i s = .fault .invalidAddress)

/-- The model's choice among the treatments of 93_implementation_defined.md U3 (log entry 6): a command whose output overlaps
an input as rule R74 forbids runs, each cell of its output range takes an unknown value, and everything else is as
specified. Nothing is said of the values. -/
def Obligations.ForbiddenOverlapLeavesOnlyOutputUnknown : Prop :=
  ∀ (i : Instr) (s : State), AddressesOk i s → ¬ OverlapOk i s →
    ∃ t, exec i s = .next t ∧ t = { s with mem := t.mem, code := 0#2, draws := s.draws + 1 } ∧
      ∀ a, a < (outputRange i s).1 ∨ (outputRange i s).1 + (outputRange i s).2 ≤ a → t.mem.read a = s.mem.read a

/-! ### The primitive commands (40_primitives.md) -/

/-- Rules R120, R135: SAT, opcode 0x01, clamps `S(OPA)` to `bits` bits for `bits` in 1..32 and copies `OPA` for every other
`bits`; nothing but `RES` and `STATUS.CODE` is written. -/
def Obligations.SatClampsToBits : Prop :=
  (∀ imm : BitVec 16, decode (commandWord imm 0x01#8) = .ok (.sat imm.toNat)) ∧
  ∀ (s : State) (bits : Nat), ∃ t, exec (.sat bits) s = .next t ∧ t = { s with res := t.res, code := 0#2 } ∧
    (1 ≤ bits → bits ≤ 32 →
      t.res.toInt = max (-(2 : Int) ^ (bits - 1)) (min ((2 : Int) ^ (bits - 1) - 1) s.ops.opa.toInt)) ∧
    (bits = 0 ∨ 33 ≤ bits → t.res = s.ops.opa)

/-- Rule R121: the saturator at 16 bits over the whole 32-bit domain, and `sat16` as the saturator narrowed. -/
def Obligations.SaturationAtSixteenBits : Prop :=
  (∀ v : Word, (v.toInt > 32767 → (sat v 16).toInt = 32767) ∧ (v.toInt < -32768 → (sat v 16).toInt = -32768) ∧
    (-32768 ≤ v.toInt → v.toInt ≤ 32767 → sat v 16 = v)) ∧
  (∀ z : Int, -(2 : Int) ^ 31 ≤ z → z < (2 : Int) ^ 31 → sat16 z = lane0 (sat (BitVec.ofInt 32 z) 16)) ∧
  ∀ z : Int, (sat16 z).toInt = min 32767 (max (-32768) z)

/-- Rules R122, R136: CLZ, word 0x0000_0002, returns 32 for 0 and otherwise the number of zero bits above the highest set bit; nothing but `RES`
and `STATUS.CODE` is written. -/
def Obligations.ClzCountsLeadingZeros : Prop :=
  decode 0x00000002#32 = .ok .clz ∧
  ∀ s : State, ∃ t, exec .clz s = .next t ∧ t = { s with res := t.res, code := 0#2 } ∧ t.res.toNat ≤ 32 ∧
    (s.ops.opa = 0#32 → t.res.toNat = 32) ∧
    (s.ops.opa ≠ 0#32 →
      2 ^ (31 - t.res.toNat) ≤ s.ops.opa.toNat ∧ s.ops.opa.toNat < 2 ^ (32 - t.res.toNat) ∧ t.res.toNat < 32)

/-- Rules R123, R137: PACK16, word 0x0000_0003, places the low halves of `OPA` and `OPB` by the `ENDIAN` strap; nothing but `RES` and
`STATUS.CODE` is written. -/
def Obligations.Pack16PlacesHalvesByEndian : Prop :=
  decode 0x00000003#32 = .ok .pack16 ∧
  ∀ s : State, ∃ t, exec .pack16 s = .next t ∧ t = { s with res := t.res, code := 0#2 } ∧
    (s.platform.straps.endian = .little →
      t.res.toNat = (s.ops.opb.toNat % 65536) * 65536 + s.ops.opa.toNat % 65536) ∧
    (s.platform.straps.endian = .big →
      t.res.toNat = (s.ops.opa.toNat % 65536) * 65536 + s.ops.opb.toNat % 65536)

/-- Rules R138, R139: UNPK0, word 0x0000_0004, and UNPK1, word 0x0001_0004, sign-extend the half of `OPA` that holds element
0 and element 1 under the `ENDIAN` strap; nothing but `RES` and `STATUS.CODE` is written. After PACK16 and a copy of `RES` to
`OPA` they return the low halves of the old `OPA` and of `OPB`, under either strap. -/
def Obligations.UnpkTakesElementsByEndian : Prop :=
  decode 0x00000004#32 = .ok .unpk0 ∧ decode 0x00010004#32 = .ok .unpk1 ∧
  ∀ s : State,
    (∃ t, exec .unpk0 s = .next t ∧ t = { s with res := t.res, code := 0#2 } ∧
      (s.platform.straps.endian = .little → t.res.toInt = (s.ops.opa.extractLsb' 0 16).toInt) ∧
      (s.platform.straps.endian = .big → t.res.toInt = (s.ops.opa.extractLsb' 16 16).toInt)) ∧
    (∃ t, exec .unpk1 s = .next t ∧ t = { s with res := t.res, code := 0#2 } ∧
      (s.platform.straps.endian = .little → t.res.toInt = (s.ops.opa.extractLsb' 16 16).toInt) ∧
      (s.platform.straps.endian = .big → t.res.toInt = (s.ops.opa.extractLsb' 0 16).toInt)) ∧
    ∃ t u0 u1, exec .pack16 s = .next t ∧ exec .unpk0 { t with ops := { t.ops with opa := t.res } } = .next u0 ∧
      exec .unpk1 { t with ops := { t.ops with opa := t.res } } = .next u1 ∧
      u0.res = (s.ops.opa.extractLsb' 0 16).signExtend 32 ∧ u1.res = (s.ops.opb.extractLsb' 0 16).signExtend 32

/-- Rule R124: which half element 0 and element 1 of a word are, and unpacking as the inverse of packing under either strap
value. -/
def Obligations.UnpackInvertsPack : Prop :=
  (∀ w : Word, (e0 .little w).toNat = w.toNat % 65536 ∧ (e1 .little w).toNat = w.toNat / 65536 ∧
    (e0 .big w).toNat = w.toNat / 65536 ∧ (e1 .big w).toNat = w.toNat % 65536) ∧
  ∀ (e : Endian) (l h : Sample) (w : Word),
    e0 e (pack16 e l h) = l ∧ e1 e (pack16 e l h) = h ∧ pack16 e (e0 e w) (e1 e w) = w

/-- Rules R127, R140: QADD16X2 is word 0x0000_0005; each half of its result is the sum of the operands' halves, clamped on its own; nothing
but `RES` and `STATUS.CODE` is written. -/
def Obligations.Qadd16x2AddsLanesWithSaturation : Prop :=
  decode 0x00000005#32 = .ok .qadd16x2 ∧
  ∀ s : State, ∃ t, exec .qadd16x2 s = .next t ∧ t = { s with res := t.res, code := 0#2 } ∧
    ∀ k, k = 0 ∨ k = 16 → (t.res.extractLsb' k 16).toInt =
      clamp16 ((s.ops.opa.extractLsb' k 16).toInt + (s.ops.opb.extractLsb' k 16).toInt)

/-- Rules R128, R141: QSUB16X2 is word 0x0000_0006; each half of its result is the difference of the operands' halves, `OPA` the minuend,
clamped on its own; nothing but `RES` and `STATUS.CODE` is written. -/
def Obligations.Qsub16x2SubtractsLanesWithSaturation : Prop :=
  decode 0x00000006#32 = .ok .qsub16x2 ∧
  ∀ s : State, ∃ t, exec .qsub16x2 s = .next t ∧ t = { s with res := t.res, code := 0#2 } ∧
    ∀ k, k = 0 ∨ k = 16 → (t.res.extractLsb' k 16).toInt =
      clamp16 ((s.ops.opa.extractLsb' k 16).toInt - (s.ops.opb.extractLsb' k 16).toInt)

/-- Rules R129, R130: the four-stage pipeline is `shift16` for every Sample and every amount, its value is the exact left
shift clamped, or the floor of the division, and a word is shifted lane by lane. -/
def Obligations.ShiftPipelineIsExactShift : Prop :=
  (∀ (x : Sample) (n : Int), shiftPipeline x n = shift16 x n ∧
    (0 ≤ n → (shiftPipeline x n).toInt = clamp16 (x.toInt * (2 : Int) ^ n.toNat)) ∧
    (n < 0 → (shiftPipeline x n).toInt = x.toInt / (2 : Int) ^ (-n).toNat)) ∧
  ∀ (w : Word) (n : Int), lane0 (shiftPipeline16x2 w n) = shift16 (lane0 w) n ∧
    lane1 (shiftPipeline16x2 w n) = shift16 (lane1 w) n

/-- Rules R131, R132, R226: the two negation strategies agree with `abs16` on every Sample and in both lanes, and the result
is the magnitude capped at 32767. -/
def Obligations.AbsoluteValueStrategiesAgree : Prop :=
  (∀ x : Sample, scalarAbs x = abs16 x ∧ absSelect x (qsub16 0#16 x) = abs16 x ∧
    (abs16 x).toInt = min 32767 |x.toInt|) ∧
  ∀ w : Word, lane0 (abs16x2 w) = abs16 (lane0 w) ∧ lane1 (abs16x2 w) = abs16 (lane1 w)

/-! ### The vector commands (41_vector.md) -/

/-- Rule R162: VFILL, opcode 0x10, leaves its value in each of the `LEN` cells from `DST`, and nothing else changes but `STATUS.CODE`. -/
def Obligations.VfillFillsOutputRange : Prop :=
  (∀ imm : BitVec 16, decode (commandWord imm 0x10#8) = .ok (.vfill imm)) ∧
  ∀ (s : State) (v : Sample), MachineInv s → RangeOk s s.dstA s.count →
    ∃ t, exec (.vfill v) s = .next t ∧ t = { s with mem := t.mem, code := 0#2 } ∧
      (∀ k < s.count, t.mem.read (s.dstA + k) = v) ∧
      ∀ a, a < s.dstA ∨ s.dstA + s.count ≤ a → t.mem.read a = s.mem.read a

/-- Rule R163: VCOPY, word 0x0000_0011, copies every element, leaves every cell outside the output range, and changes no cell when
`DST = SRCA`. -/
def Obligations.VcopyCopiesElements : Prop :=
  decode 0x00000011#32 = .ok .vcopy ∧
  ∀ s : State, MachineInv s → RangeOk s s.srcA s.count → RangeOk s s.dstA s.count → Lockstep s.dstA s.srcA s.count →
    ∃ t, exec .vcopy s = .next t ∧ t = { s with mem := t.mem, code := 0#2 } ∧
      (∀ k < s.count, t.mem.read (s.dstA + k) = s.mem.read (s.srcA + k)) ∧
      (∀ a, a < s.dstA ∨ s.dstA + s.count ≤ a → t.mem.read a = s.mem.read a) ∧
      (s.ops.dst = s.ops.srca → t.mem = s.mem)

/-- Rule R164: VADD, word 0x0000_0012, leaves the clamped sum of the old elements, in place or not. -/
def Obligations.VaddAddsElementsWithSaturation : Prop :=
  decode 0x00000012#32 = .ok .vadd ∧
  ∀ s : State, MachineInv s → RangeOk s s.srcA s.count → RangeOk s s.srcB s.count → RangeOk s s.dstA s.count →
    Lockstep s.dstA s.srcA s.count → Lockstep s.dstA s.srcB s.count →
    ∃ t, exec .vadd s = .next t ∧ t = { s with mem := t.mem, code := 0#2 } ∧
      (∀ k < s.count, (t.mem.read (s.dstA + k)).toInt =
        clamp16 ((s.mem.read (s.srcA + k)).toInt + (s.mem.read (s.srcB + k)).toInt)) ∧
      ∀ a, a < s.dstA ∨ s.dstA + s.count ≤ a → t.mem.read a = s.mem.read a

/-- Rule R165: VSUB, word 0x0000_0013, leaves the clamped difference of the old elements, `SRCA` the minuend, in place or not. -/
def Obligations.VsubSubtractsElementsWithSaturation : Prop :=
  decode 0x00000013#32 = .ok .vsub ∧
  ∀ s : State, MachineInv s → RangeOk s s.srcA s.count → RangeOk s s.srcB s.count → RangeOk s s.dstA s.count →
    Lockstep s.dstA s.srcA s.count → Lockstep s.dstA s.srcB s.count →
    ∃ t, exec .vsub s = .next t ∧ t = { s with mem := t.mem, code := 0#2 } ∧
      (∀ k < s.count, (t.mem.read (s.dstA + k)).toInt =
        clamp16 ((s.mem.read (s.srcA + k)).toInt - (s.mem.read (s.srcB + k)).toInt)) ∧
      ∀ a, a < s.dstA ∨ s.dstA + s.count ≤ a → t.mem.read a = s.mem.read a

/-- Rule R166: VMEAN, word 0x0000_0014, returns the exact sum divided by `LEN`, truncated toward zero, sign-extended; the 48-bit accumulator
holds the exact sum; with `LEN = 0` only `STATUS.CODE` is written; no cell of memory ever is. -/
def Obligations.VmeanReturnsTruncatedMean : Prop :=
  decode 0x00000014#32 = .ok .vmean ∧
  ∀ s : State, RangeOk s s.srcA s.count →
    (s.count = 0 → exec .vmean s = .next { s with code := 0#2 }) ∧
    (s.count ≠ 0 → (vmeanRun s).acc.toInt = exactSum s.mem s.srcA s.count ∧
      ∃ t, exec .vmean s = .next t ∧ t = { s with res := t.res, code := 0#2 } ∧
        t.res.toInt = (exactSum s.mem s.srcA s.count).tdiv s.count)

/-- Rule R167: VSHIFT, opcode 0x15 with a signed immediate, leaves the exact left shift clamped, or the floor of the division, of the old element, for every
amount, in place or not. -/
def Obligations.VshiftShiftsElements : Prop :=
  (∀ imm : BitVec 16, decode (commandWord imm 0x15#8) = .ok (.vshift imm.toInt)) ∧
  ∀ (s : State) (n : Int), MachineInv s → RangeOk s s.srcA s.count → RangeOk s s.dstA s.count →
    Lockstep s.dstA s.srcA s.count →
    ∃ t, exec (.vshift n) s = .next t ∧ t = { s with mem := t.mem, code := 0#2 } ∧
      (∀ k < s.count,
        (0 ≤ n → (t.mem.read (s.dstA + k)).toInt = clamp16 ((s.mem.read (s.srcA + k)).toInt * (2 : Int) ^ n.toNat)) ∧
        (n < 0 → (t.mem.read (s.dstA + k)).toInt = (s.mem.read (s.srcA + k)).toInt / (2 : Int) ^ (-n).toNat)) ∧
      ∀ a, a < s.dstA ∨ s.dstA + s.count ≤ a → t.mem.read a = s.mem.read a

/-- Rule R168: VABS, word 0x0000_0016, leaves the magnitude of the old element, capped at 32767, in place or not. -/
def Obligations.VabsTakesMagnitudes : Prop :=
  decode 0x00000016#32 = .ok .vabs ∧
  ∀ s : State, MachineInv s → RangeOk s s.srcA s.count → RangeOk s s.dstA s.count → Lockstep s.dstA s.srcA s.count →
    ∃ t, exec .vabs s = .next t ∧ t = { s with mem := t.mem, code := 0#2 } ∧
      (∀ k < s.count, (t.mem.read (s.dstA + k)).toInt = min 32767 |(s.mem.read (s.srcA + k)).toInt|) ∧
      ∀ a, a < s.dstA ∨ s.dstA + s.count ≤ a → t.mem.read a = s.mem.read a

/-- Rule R169: with `LEN = 0` each of the seven vector commands completes whatever its address registers hold, accesses no
cell, and writes nothing but `STATUS.CODE`. -/
def Obligations.ZeroLengthIsNoOp : Prop :=
  ∀ (i : Instr) (s : State), isVector i = true → s.ops.len = 0#32 →
    exec i s = .next { s with code := 0#2 } ∧ accessLog i s = []

/-- The stated property of rule R163: a copy followed by a copy of the copy reproduces the original, the last buffer being
identical to the middle one or disjoint from it. -/
def Obligations.CopyOfCopyReproducesOriginal : Prop :=
  ∀ (s t u : State) (v2 : Word), MachineInv s → Preconditions .vcopy s → exec .vcopy s = .next t →
    Lockstep v2.toNat s.dstA s.count →
    exec .vcopy { t with ops := { t.ops with srca := s.ops.dst, dst := v2 } } = .next u →
      ∀ k < s.count, u.mem.read (v2.toNat + k) = s.mem.read (s.srcA + k)

/-- Rule R164: swapping `SRCA` and `SRCB` of a VADD gives the same memory, result and status. -/
def Obligations.VaddIsCommutative : Prop :=
  ∀ s t u : State, MachineInv s → Preconditions .vadd s → exec .vadd s = .next t →
    exec .vadd { s with ops := { s.ops with srca := s.ops.srcb, srcb := s.ops.srca } } = .next u →
      u.mem = t.mem ∧ u.res = t.res ∧ u.code = t.code

/-- Rule R168: VABS in place twice is VABS in place once, and no output is negative. -/
def Obligations.VabsIsIdempotent : Prop :=
  ∀ s t : State, MachineInv s → RangeOk s s.dstA s.count → s.ops.dst = s.ops.srca → exec .vabs s = .next t →
    exec .vabs t = .next t ∧ ∀ k < s.count, 0 ≤ (t.mem.read (s.dstA + k)).toInt

/-! ### The transpose (42_matrix.md) -/

/-- Rule R201: MTRANS, word 0x0000_0020, leaves source element (r, c) in destination element (c, r) for every r and c, and
nothing else changes but `STATUS.CODE`; with the shape check failing it writes `STATUS.CODE <- 1` and nothing else. -/
def Obligations.MtransWritesTranspose : Prop :=
  decode 0x00000020#32 = .ok .mtrans ∧
  (∀ s : State, MachineInv s → ShapeAccepted s → RangeOk s s.srcA (s.rows * s.cols) →
    RangeOk s s.dstA (s.rows * s.cols) → RangesDisjoint s.srcA s.dstA (s.rows * s.cols) →
    ∃ t, exec .mtrans s = .next t ∧ t = { s with mem := t.mem, code := 0#2 } ∧
      (∀ r < s.rows, ∀ c < s.cols, t.mem.read (s.dstA + c * s.rows + r) = s.mem.read (s.srcA + r * s.cols + c)) ∧
      ∀ a, a < s.dstA ∨ s.dstA + s.rows * s.cols ≤ a → t.mem.read a = s.mem.read a) ∧
  ∀ s : State, ¬ ShapeAccepted s → exec .mtrans s = .next { s with code := 1#2 }

/-- Rules R202, R242: with the check enabled and the declared destination not the transposed shape, MTRANS accesses no cell
and writes `STATUS.CODE <- 1` and nothing else, whatever the addresses; with the check disabled it never ends with code 1
and never reads `DDIM` (where its outcome is defined); nothing else ends with code 1. -/
def Obligations.ShapeCheckRaisesSizeMismatch : Prop :=
  (∀ s : State, s.platform.straps.shapeCheckEn = true →
    (s.ops.ddim.toNat % 65536 ≠ s.ops.sdim.toNat / 65536 ∨ s.ops.ddim.toNat / 65536 ≠ s.ops.sdim.toNat % 65536) →
      exec .mtrans s = .next { s with code := 1#2 } ∧ accessLog .mtrans s = []) ∧
  (∀ s t : State, s.platform.straps.shapeCheckEn = false → exec .mtrans s = .next t → t.code = 0#2) ∧
  (∀ (s t : State) (d : Word), s.platform.straps.shapeCheckEn = false → OverlapOk .mtrans s → exec .mtrans s = .next t →
    exec .mtrans { s with ops := { s.ops with ddim := d } } = .next { t with ops := { t.ops with ddim := d } }) ∧
  ∀ (i : Instr) (s t : State), exec i s = .next t → t.code = 1#2 →
    i = .mtrans ∧ s.platform.straps.shapeCheckEn = true ∧ ¬ ShapesAgree s

/-- Rule R206: with R = 0 or C = 0 no cell is read or written; the shape check is made as usual. -/
def Obligations.ZeroDimensionTransposesNothing : Prop :=
  ∀ s : State, s.rows = 0 ∨ s.cols = 0 → accessLog .mtrans s = [] ∧
    (ShapeAccepted s → exec .mtrans s = .next { s with code := 0#2 }) ∧
    (¬ ShapeAccepted s → exec .mtrans s = .next { s with code := 1#2 })

/-- Rule R201 used twice: transposing the transpose into a third buffer gives the original matrix back. -/
def Obligations.TransposeOfTransposeIsOriginal : Prop :=
  ∀ (s t u : State) (b : Word), MachineInv s → ShapeAccepted s → Preconditions .mtrans s → exec .mtrans s = .next t →
    RangesDisjoint s.dstA b.toNat (s.rows * s.cols) →
    exec .mtrans { t with ops := { t.ops with
      srca := s.ops.dst, dst := b, sdim := s.ops.sdim.rotateLeft 16, ddim := s.ops.sdim } } = .next u →
      ∀ k < s.rows * s.cols, u.mem.read (b.toNat + k) = s.mem.read (s.srcA + k)

/-! ### The sequencer and the memory port (20_memory.md, 43_loop_pattern.md, 70_reset_and_hazards.md) -/

/-- Rule R224, the central correctness property: for every command, on every state that meets its preconditions and under
either `ENDIAN`, the packed path and the scalar path leave the same state, and it is the end state of the command's rule in
every cell, in `RES` and in `STATUS.CODE`. -/
def Obligations.PackedAndScalarPathsLeaveTheEndState : Prop :=
  ∀ (i : Instr) (s : State), MachineInv s → Preconditions i s →
    ∃ t, (∀ b : Bool, exec i (withPacked b s) = .next (withPacked b t)) ∧
      (∀ a, t.mem.read a = endCell i s a) ∧ t.res = endResult i s ∧ t.code = endCode i s

/-- Rules R62, R63: a single access moves one cell; a pair access moves the cells at `a` and `a+1` as one word, element 0
in the half the `ENDIAN` strap says; a write changes no other cell. -/
def Obligations.SingleAndPairAccesses : Prop :=
  ∀ (m : Mem) (a : Nat), m.wf →
    (∀ (v : Sample) (b : Nat), (m.write a v).read b = if b = a then v else m.read b) ∧
    (m.readPair .little a).toNat = (m.read (a + 1)).toNat * 65536 + (m.read a).toNat ∧
    (m.readPair .big a).toNat = (m.read a).toNat * 65536 + (m.read (a + 1)).toNat ∧
    ∀ (w : Word) (b : Nat),
      (m.writePair .little a w).read b =
        (if b = a then w.extractLsb' 0 16 else if b = a + 1 then w.extractLsb' 16 16 else m.read b) ∧
      (m.writePair .big a w).read b =
        (if b = a then w.extractLsb' 16 16 else if b = a + 1 then w.extractLsb' 0 16 else m.read b)

/-- Rule R64: a pair read after a pair write of the same address gives the word; writing back a pair just read changes
nothing; and the `ENDIAN` strap cannot be seen in memory, in `RES` or in the status after any command but PACK16, UNPK0 and
UNPK1. -/
def Obligations.EndianCannotBeSeenInMemory : Prop :=
  (∀ (e : Endian) (m : Mem) (a : Nat) (w : Word), m.wf →
    (m.writePair e a w).readPair e a = w ∧ m.writePair e a (m.readPair e a) = m) ∧
  ∀ (i : Instr) (s : State), MachineInv s → Preconditions i s →
    ∃ t, (∀ e, ∃ u, exec i (withEndian e s) = .next u ∧ u.mem = t.mem ∧ u.code = t.code ∧
      (i ≠ .pack16 → i ≠ .unpk0 → i ≠ .unpk1 → u = withEndian e t))

/-- Rule R65: the byte view. Which byte of Sample `a` stands at `2a` and `2a+1` under each strap, that a pair read is the
platform's native 32-bit load of the four bytes from `2a`, and that a byte written through the view changes that byte
only. -/
def Obligations.ByteViewMatchesNativeWord : Prop :=
  ∀ (m : Mem) (a : Nat), m.wf →
    (m.readByte .little (2 * a) = (m.read a).extractLsb' 0 8 ∧
      m.readByte .little (2 * a + 1) = (m.read a).extractLsb' 8 8) ∧
    (m.readByte .big (2 * a) = (m.read a).extractLsb' 8 8 ∧
      m.readByte .big (2 * a + 1) = (m.read a).extractLsb' 0 8) ∧
    (m.readPair .little a).toNat = (m.readByte .little (2 * a)).toNat + 256 * (m.readByte .little (2 * a + 1)).toNat +
      65536 * (m.readByte .little (2 * a + 2)).toNat + 16777216 * (m.readByte .little (2 * a + 3)).toNat ∧
    (m.readPair .big a).toNat = 16777216 * (m.readByte .big (2 * a)).toNat +
      65536 * (m.readByte .big (2 * a + 1)).toNat + 256 * (m.readByte .big (2 * a + 2)).toNat +
      (m.readByte .big (2 * a + 3)).toNat ∧
    ∀ (e : Endian) (b b' : Nat) (v : Byte),
      (m.writeByte e b v).readByte e b' = if b' = b then v else m.readByte e b'

/-- Rule R279: how many single and pair accesses each vector command and MTRANS makes on the memory port under each value of
`PACKED_EN` (for an MTRANS that fails the shape check, none: rule R202). -/
def Obligations.AccessCountsOfEveryCommand : Prop :=
  ∀ (i : Instr) (s : State) (n m r : Nat), Preconditions i s → n = s.count → m = n / 4 → r = n % 4 →
    (s.platform.straps.packedEn = false →
      ((∃ v, i = .vfill v) → countAccesses (accessLog i s) = ⟨0, 0, n, 0⟩) ∧
      (i = .vcopy ∨ (∃ k, i = .vshift k) ∨ i = .vabs → countAccesses (accessLog i s) = ⟨n, 0, n, 0⟩) ∧
      (i = .vadd ∨ i = .vsub → countAccesses (accessLog i s) = ⟨2 * n, 0, n, 0⟩) ∧
      (i = .vmean → countAccesses (accessLog i s) = ⟨n, 0, 0, 0⟩) ∧
      (i = .mtrans → ShapeAccepted s →
        countAccesses (accessLog i s) = ⟨s.rows * s.cols, 0, s.rows * s.cols, 0⟩)) ∧
    (s.platform.straps.packedEn = true →
      ((∃ v, i = .vfill v) → countAccesses (accessLog i s) = ⟨0, 0, r, 2 * m⟩) ∧
      (i = .vcopy ∨ (∃ k, i = .vshift k) ∨ i = .vabs → countAccesses (accessLog i s) = ⟨r, 2 * m, r, 2 * m⟩) ∧
      (i = .vadd ∨ i = .vsub → countAccesses (accessLog i s) = ⟨2 * r, 4 * m, r, 2 * m⟩) ∧
      (i = .vmean → countAccesses (accessLog i s) = ⟨r, 2 * m, 0, 0⟩) ∧
      (i = .mtrans → ShapeAccepted s → countAccesses (accessLog i s) =
        ⟨s.rows * (s.cols % 4), s.rows * (2 * (s.cols / 4)), s.rows * s.cols, 0⟩))

/-- Rule R76 (with R69): (a) an input element is read before the output element made from it is written, (b) each output
cell is written exactly once, (c) each input cell the rule names is read, once for each element it is, and no other cell is
read, (d) no cell outside the output range is written. -/
def Obligations.AccessesReadBeforeWriteEachOnce : Prop :=
  ∀ (i : Instr) (s : State), Preconditions i s →
    ((accessLog i s).flatMap Access.writes).Perm (List.range' (outputRange i s).1 (outputRange i s).2) ∧
    ((accessLog i s).flatMap Access.reads).Perm (inputCells i s) ∧
    ∀ (before later : List Access) (x : Access), accessLog i s = before ++ x :: later →
      ∀ a ∈ x.writes, ∀ b ∈ sourcesOf i s a, b ∈ before.flatMap Access.reads

/-- Rule R221: pair accesses are made with `PACKED_EN = 1` only, at even indices of the main-loop part of a Vector or of a
Matrix row, never at a remainder element; MTRANS writes no pair; with `PACKED_EN = 1` the single accesses of a Vector, and
the single reads of an MTRANS, are those of the remainder elements. -/
def Obligations.PairAccessesOnlyInMainLoop : Prop :=
  ∀ (i : Instr) (s : State) (a : Nat),
    (.readPair a ∈ accessLog i s → s.platform.straps.packedEn = true ∧
      ((i ≠ .mtrans ∧ ∃ k, k % 2 = 0 ∧ k + 1 < 4 * (s.count / 4) ∧ (a = s.srcA + k ∨ a = s.srcB + k)) ∨
        (i = .mtrans ∧ ∃ r < s.rows, ∃ k, k % 2 = 0 ∧ k + 1 < 4 * (s.cols / 4) ∧ a = s.srcA + r * s.cols + k))) ∧
    (.writePair a ∈ accessLog i s → s.platform.straps.packedEn = true ∧ i ≠ .mtrans ∧
      ∃ k, k % 2 = 0 ∧ k + 1 < 4 * (s.count / 4) ∧ a = s.dstA + k) ∧
    (s.platform.straps.packedEn = true →
      (.readSingle a ∈ accessLog i s →
        (i ≠ .mtrans ∧ ∃ k, 4 * (s.count / 4) ≤ k ∧ k < s.count ∧ (a = s.srcA + k ∨ a = s.srcB + k)) ∨
          (i = .mtrans ∧ ∃ r < s.rows, ∃ k, 4 * (s.cols / 4) ≤ k ∧ k < s.cols ∧ a = s.srcA + r * s.cols + k)) ∧
      (.writeSingle a ∈ accessLog i s → i ≠ .mtrans →
        ∃ k, 4 * (s.count / 4) ≤ k ∧ k < s.count ∧ a = s.dstA + k))
end

