-- ==== Sys2Proof/Laws/Datapath.lean ====
section
/-! SUPPORT. The datapath functions pushed down to integers and lanes. -/

namespace Sys2Proof.Machine

theorem lane0_lanes (hi lo : Sample) : lane0 (lanes hi lo) = lo := by
  ext i h
  unfold lane0 lanes
  rw [BitVec.getElem_extractLsb']
  refine BitVec.getLsbD_append.trans ?_
  simp [h, BitVec.getLsbD_eq_getElem]

theorem lane1_lanes (hi lo : Sample) : lane1 (lanes hi lo) = hi := by
  ext i h
  unfold lane1 lanes
  rw [BitVec.getElem_extractLsb']
  refine BitVec.getLsbD_append.trans ?_
  simp [h, BitVec.getLsbD_eq_getElem]

theorem lanes_of_lanes (w : Word) : lanes (lane1 w) (lane0 w) = w := by
  unfold lanes lane0 lane1
  ext i hi
  rw [BitVec.getElem_append]
  split_ifs with h
  · simp [BitVec.getLsbD_eq_getElem (show i < 32 by omega)]
  · have : 16 + (i - 16) = i := by omega
    simp [this, BitVec.getLsbD_eq_getElem (show i < 32 by omega)]

/-- A packed word is its two lanes. -/
theorem word_ext_lanes {w w' : Word} (h0 : lane0 w = lane0 w') (h1 : lane1 w = lane1 w') : w = w' := by
  rw [← lanes_of_lanes w, ← lanes_of_lanes w', h0, h1]

/-- An integer in the signed 16-bit range is kept by a 16-bit vector. -/
theorem toInt_ofInt16 {z : Int} (h : -32768 ≤ z) (h' : z ≤ 32767) : (BitVec.ofInt 16 z).toInt = z := by
  rw [BitVec.toInt_ofInt, Int.bmod_eq_of_le] <;> omega

/-- An integer in the signed 32-bit range is kept by a 32-bit vector. -/
theorem toInt_ofInt32 {z : Int} (h : -2147483648 ≤ z) (h' : z ≤ 2147483647) : (BitVec.ofInt 32 z).toInt = z := by
  rw [BitVec.toInt_ofInt, Int.bmod_eq_of_le] <;> omega

theorem sample_range (x : Sample) : -32768 ≤ x.toInt ∧ x.toInt ≤ 32767 := by
  have := BitVec.le_toInt x
  have := BitVec.toInt_lt (x := x)
  omega

theorem word_range (x : Word) : -2147483648 ≤ x.toInt ∧ x.toInt ≤ 2147483647 := by
  have := BitVec.le_toInt x
  have := BitVec.toInt_lt (x := x)
  omega

/-- `sat16` clamps (rule R121). -/
theorem toInt_sat16 (z : Int) : (sat16 z).toInt = min 32767 (max (-32768) z) :=
  toInt_ofInt16 (by omega) (by omega)

theorem toInt_qadd16 (a b : Sample) : (qadd16 a b).toInt = min 32767 (max (-32768) (a.toInt + b.toInt)) := toInt_sat16 _

theorem toInt_qsub16 (a b : Sample) : (qsub16 a b).toInt = min 32767 (max (-32768) (a.toInt - b.toInt)) := toInt_sat16 _

/-- The low half of a word whose value is a Sample's has that value. -/
theorem lane0_ofInt32 (z : Int) : lane0 (BitVec.ofInt 32 z) = BitVec.ofInt 16 z := by
  unfold lane0
  apply BitVec.eq_of_toNat_eq
  rw [BitVec.extractLsb'_toNat, BitVec.toNat_ofInt, BitVec.toNat_ofInt]
  simp only [Nat.shiftRight_zero]
  omega

/-- The saturator at 16 bits, narrowed, is `sat16` of the word's value (rule R121). -/
theorem lane0_sat16 (v : Word) : lane0 (sat v 16) = sat16 v.toInt := by
  unfold sat sat16
  rw [if_pos (by decide)]
  simp only [show (((2 ^ (16 - 1) : Nat) : Int) - 1) = 32767 from rfl, show (-1 - 32767 : Int) = -32768 from rfl]
  split_ifs with h1 h2
  · rw [lane0_ofInt32]; congr 1; omega
  · rw [lane0_ofInt32]; congr 1; omega
  · have h : min 32767 (max (-32768) v.toInt) = v.toInt := by omega
    rw [h, ← lane0_ofInt32, BitVec.ofInt_toInt]

end Sys2Proof.Machine
end

