-- ==== Sys2Proof/Laws/Memory.lean ====
section
/-! SUPPORT. The Sample memory: a read after a write, every other cell unchanged, the canonical form kept, and equality of
canonical memories from equality of every read (rules R62 to R64). -/

namespace Sys2Proof

@[simp] theorem Mem.read_nil (a : Nat) : Mem.read [] a = Mem.unlisted := rfl

theorem Mem.read_cons (b : Nat) (w : Sample) (m : Mem) (a : Nat) :
    Mem.read ((b, w) :: m) a = if a = b then w else Mem.read m a := rfl

@[simp] theorem Mem.wf_nil : Mem.wf [] := ⟨List.Pairwise.nil, by simp⟩

theorem Mem.wf_cons_iff (b : Nat) (w : Sample) (m : Mem) :
    Mem.wf ((b, w) :: m) ↔ (∀ p ∈ m, b < p.1) ∧ w ≠ Mem.unlisted ∧ Mem.wf m := by
  simp only [Mem.wf, List.pairwise_cons, List.forall_mem_cons]
  tauto

/-- A cell no entry names reads as unlisted. -/
theorem Mem.read_of_not_listed {m : Mem} {a : Nat} (h : ∀ p ∈ m, p.1 ≠ a) : m.read a = Mem.unlisted := by
  induction m with
  | nil => rfl
  | cons p m ih =>
    obtain ⟨b, w⟩ := p
    rw [Mem.read_cons, if_neg (fun e => h (b, w) (by simp) e.symm)]
    exact ih fun q hq => h q (by simp [hq])

/-- A write leaves every other cell alone, in canonical form or not. -/
theorem Mem.read_write_other (m : Mem) {a b : Nat} (v : Sample) (h : b ≠ a) :
    (m.write a v).read b = m.read b := by
  induction m with
  | nil => unfold Mem.write; split <;> simp [Mem.read_cons, h]
  | cons p m ih =>
    obtain ⟨c, w⟩ := p
    unfold Mem.write
    split_ifs with h1 h2 h3 h4
    · rfl
    · rw [Mem.read_cons, if_neg h]
    · subst h3; rw [Mem.read_cons, if_neg h]
    · subst h3; rw [Mem.read_cons, Mem.read_cons, if_neg h, if_neg h]
    · rw [Mem.read_cons, Mem.read_cons, ih]

/-- A read after a write of the same cell gives the value written. -/
theorem Mem.read_write_same {m : Mem} (a : Nat) (v : Sample) (hm : m.wf) : (m.write a v).read a = v := by
  induction m with
  | nil => unfold Mem.write; split_ifs with h <;> simp [Mem.read_cons, h]
  | cons p m ih =>
    obtain ⟨c, w⟩ := p
    obtain ⟨hlt, hw, hm'⟩ := (Mem.wf_cons_iff c w m).1 hm
    unfold Mem.write
    split_ifs with h1 h2 h3 h4
    · rw [h2, Mem.read_of_not_listed]
      intro q hq
      rcases List.mem_cons.1 hq with rfl | hq
      · exact Nat.ne_of_gt h1
      · exact Nat.ne_of_gt (h1.trans (hlt q hq))
    · rw [Mem.read_cons, if_pos rfl]
    · subst h3
      rw [h4, Mem.read_of_not_listed fun q hq => Nat.ne_of_gt (hlt q hq)]
    · rw [Mem.read_cons, if_pos rfl]
    · rw [Mem.read_cons, if_neg h3, ih hm']

theorem Mem.read_write {m : Mem} (a b : Nat) (v : Sample) (hm : m.wf) :
    (m.write a v).read b = if b = a then v else m.read b := by
  split_ifs with h
  · rw [h, Mem.read_write_same a v hm]
  · exact Mem.read_write_other m v h

/-- Every entry of a memory after a write is the one written or an old one. -/
theorem Mem.mem_write {m : Mem} {a : Nat} {v : Sample} {p : Nat × Sample} (hp : p ∈ m.write a v) :
    p = (a, v) ∧ v ≠ Mem.unlisted ∨ p ∈ m := by
  induction m with
  | nil => unfold Mem.write at hp; split_ifs at hp <;> simp_all
  | cons q m ih =>
    obtain ⟨c, w⟩ := q
    unfold Mem.write at hp
    split_ifs at hp with h1 h2 h3 h4
    · exact .inr hp
    · rcases List.mem_cons.1 hp with rfl | h
      · exact .inl ⟨rfl, h2⟩
      · exact .inr h
    · exact .inr (List.mem_cons_of_mem _ hp)
    · rcases List.mem_cons.1 hp with rfl | h
      · exact .inl ⟨rfl, h4⟩
      · exact .inr (List.mem_cons_of_mem _ h)
    · rcases List.mem_cons.1 hp with rfl | h
      · exact .inr (by simp)
      · exact (ih h).imp_right (List.mem_cons_of_mem _)

/-- A write keeps the canonical form. -/
theorem Mem.wf_write {m : Mem} (a : Nat) (v : Sample) (hm : m.wf) : (m.write a v).wf := by
  induction m with
  | nil =>
    unfold Mem.write
    split_ifs with h
    · exact hm
    · exact (Mem.wf_cons_iff ..).2 ⟨by simp, h, hm⟩
  | cons p m ih =>
    obtain ⟨c, w⟩ := p
    obtain ⟨hlt, hw, hm'⟩ := (Mem.wf_cons_iff c w m).1 hm
    unfold Mem.write
    split_ifs with h1 h2 h3 h4
    · exact hm
    · refine (Mem.wf_cons_iff ..).2 ⟨?_, h2, hm⟩
      intro q hq
      rcases List.mem_cons.1 hq with rfl | hq
      · exact h1
      · exact h1.trans (hlt q hq)
    · exact hm'
    · subst h3; exact (Mem.wf_cons_iff ..).2 ⟨hlt, h4, hm'⟩
    · refine (Mem.wf_cons_iff ..).2 ⟨?_, hw, ih hm'⟩
      intro q hq
      rcases Mem.mem_write hq with ⟨rfl, -⟩ | h
      · show c < a
        omega
      · exact hlt q h

/-- A write to a valid address keeps every listed cell valid. -/
theorem Mem.listed_lt_write {m : Mem} {k a : Nat} (v : Sample) (ha : a < k) (hm : ∀ p ∈ m, p.1 < k) :
    ∀ p ∈ m.write a v, p.1 < k := by
  intro p hp
  rcases Mem.mem_write hp with ⟨rfl, -⟩ | h
  · exact ha
  · exact hm p h

/-- Two canonical memories that read alike everywhere are equal. -/
theorem Mem.ext_read : ∀ {m m' : Mem}, m.wf → m'.wf → (∀ a, m.read a = m'.read a) → m = m'
  | [], [], _, _, _ => rfl
  | [], (c, w) :: m', _, h', h => by
    have := (Mem.wf_cons_iff c w m').1 h'
    exact absurd (by simpa [Mem.read_cons] using (h c).symm) this.2.1
  | (c, w) :: m, [], hm, _, h => by
    have := (Mem.wf_cons_iff c w m).1 hm
    exact absurd (by simpa [Mem.read_cons] using h c) this.2.1
  | (b, v) :: m, (c, w) :: m', hm, hm', h => by
    obtain ⟨hb, hv, hm1⟩ := (Mem.wf_cons_iff b v m).1 hm
    obtain ⟨hc, hw, hm1'⟩ := (Mem.wf_cons_iff c w m').1 hm'
    have hbc : b = c := by
      rcases Nat.lt_trichotomy b c with hlt | heq | hgt
      · have := h b
        rw [Mem.read_cons, if_pos rfl, Mem.read_of_not_listed] at this
        · exact absurd this hv
        · intro q hq
          rcases List.mem_cons.1 hq with rfl | hq
          · exact Nat.ne_of_gt hlt
          · exact Nat.ne_of_gt (hlt.trans (hc q hq))
      · exact heq
      · have := (h c).symm
        rw [Mem.read_cons, if_pos rfl, Mem.read_of_not_listed] at this
        · exact absurd this hw
        · intro q hq
          rcases List.mem_cons.1 hq with rfl | hq
          · exact Nat.ne_of_gt hgt
          · exact Nat.ne_of_gt (hgt.trans (hb q hq))
    subst hbc
    have hvw : v = w := by simpa [Mem.read_cons] using h b
    subst hvw
    rw [Mem.ext_read hm1 hm1' fun a => ?_]
    by_cases hab : a = b
    · subst hab
      rw [Mem.read_of_not_listed fun q hq => Nat.ne_of_gt (hb q hq),
        Mem.read_of_not_listed fun q hq => Nat.ne_of_gt (hc q hq)]
    · simpa [Mem.read_cons, hab] using h a

/-! ### Pairs and bytes -/

theorem Mem.wf_writePair {m : Mem} (e : Endian) (a : Nat) (w : Word) (hm : m.wf) : (m.writePair e a w).wf :=
  Mem.wf_write _ _ (Mem.wf_write _ _ hm)

theorem Mem.wf_writeByte {m : Mem} (e : Endian) (b : Nat) (v : Byte) (hm : m.wf) : (m.writeByte e b v).wf :=
  Mem.wf_write _ _ hm

end Sys2Proof
end

