-- ==== Sys2Proof/Laws/Loop.lean ====
section
/-! SUPPORT. The unrolled-loop pattern (rules R220 to R223): induction over a loop once, and the packed path followed by the
scalar path through a relation. -/

namespace Sys2Proof.Machine

variable {σ τ : Type}

@[simp] theorem scalarLoop_zero (f : Nat → σ → σ) (i : Nat) (st : σ) : scalarLoop f i 0 st = st := rfl

theorem scalarLoop_succ (f : Nat → σ → σ) (i k : Nat) (st : σ) :
    scalarLoop f i (k + 1) st = scalarLoop f (i + 1) k (f i st) := rfl

@[simp] theorem mainLoop_zero (f : Nat → σ → σ) (i : Nat) (st : σ) : mainLoop f i 0 st = st := rfl

theorem mainLoop_succ (f : Nat → σ → σ) (i k : Nat) (st : σ) :
    mainLoop f i (k + 1) st = mainLoop f (i + 4) k (f (i + 2) (f i st)) := rfl

theorem scalarLoop_add (f : Nat → σ → σ) (i j k : Nat) (st : σ) :
    scalarLoop f i (j + k) st = scalarLoop f (i + j) k (scalarLoop f i j st) := by
  induction j generalizing i st with
  | zero => simp
  | succ j ih => rw [Nat.succ_add, scalarLoop_succ, scalarLoop_succ, ih]; congr 1; omega

/-- The last element of a scalar loop comes last. -/
theorem scalarLoop_last (f : Nat → σ → σ) (i k : Nat) (st : σ) :
    scalarLoop f i (k + 1) st = f (i + k) (scalarLoop f i k st) := scalarLoop_add f i k 1 st

/-- A property that each element's step carries from its index to the next holds at the end of a scalar loop. -/
theorem scalarLoop_induct {f : Nat → σ → σ} {P : Nat → σ → Prop} {i k : Nat} {st : σ} (h0 : P i st)
    (hs : ∀ j st, i ≤ j → j < i + k → P j st → P (j + 1) (f j st)) : P (i + k) (scalarLoop f i k st) := by
  induction k with
  | zero => exact h0
  | succ k ih =>
    rw [scalarLoop_last]
    exact hs (i + k) _ (Nat.le_add_right i k) (by omega) (ih fun j st h1 h2 => hs j st h1 (by omega))

/-- A property that a packed operation carries over two elements holds at the end of the main loop. -/
theorem mainLoop_induct {f : Nat → σ → σ} {P : Nat → σ → Prop} {i k : Nat} {st : σ} (h0 : P i st)
    (hs : ∀ j st, i ≤ j → j + 1 < i + 4 * k → P j st → P (j + 2) (f j st)) : P (i + 4 * k) (mainLoop f i k st) := by
  induction k generalizing i st with
  | zero => exact h0
  | succ k ih =>
    have h1 := hs i st (Nat.le_refl i) (by omega) h0
    have h2 := hs (i + 2) _ (by omega) (by omega) h1
    have := ih (i := i + 4) h2 (fun j st a b => hs j st (by omega) (by omega))
    rw [mainLoop_succ, show i + 4 * (k + 1) = i + 4 + 4 * k by omega]
    exact this

/-- The whole pattern: a property carried by the scalar step over one element and by the packed step over two holds after
all `n` elements, whichever path runs. -/
theorem unrolled_induct {b : Bool} {n : Nat} {packed scalar : Nat → σ → σ} {P : Nat → σ → Prop} {st : σ} (h0 : P 0 st)
    (hp : ∀ j st, j + 1 < n → P j st → P (j + 2) (packed j st))
    (hs : ∀ j st, j < n → P j st → P (j + 1) (scalar j st)) : P n (unrolled b n packed scalar st) := by
  unfold unrolled
  split_ifs with h
  · have hm : P (0 + 4 * (n / 4)) (mainLoop packed 0 (n / 4) st) :=
      mainLoop_induct h0 fun j st _ h2 => hp j st (by omega)
    rw [Nat.zero_add] at hm
    have := scalarLoop_induct (f := scalar) (k := n % 4) hm fun j st _ h2 => hs j st (by omega)
    rwa [show 4 * (n / 4) + n % 4 = n by omega] at this
  · have := scalarLoop_induct (f := scalar) (i := 0) (k := n) (P := P) h0 fun j st _ h2 => hs j st (by omega)
    rwa [Nat.zero_add] at this

/-! ### Writes over a range -/

theorem writeRange_wf {m : Mem} (f : Nat → Sample) (b n : Nat) (hm : m.wf) : (writeRange f b n m).wf :=
  scalarLoop_induct (P := fun _ m => Mem.wf m) hm fun _ _ _ _ h => Mem.wf_write _ _ h

theorem writeRange_listed_lt {m : Mem} {k : Nat} (f : Nat → Sample) (b n : Nat) (hb : n = 0 ∨ b + n ≤ k)
    (hm : ∀ p ∈ m, p.1 < k) : ∀ p ∈ writeRange f b n m, p.1 < k :=
  scalarLoop_induct (P := fun _ (m : Mem) => ∀ p ∈ m, p.1 < k) hm
    fun j _ _ hj h => Mem.listed_lt_write _ (by omega) h

/-- A range write leaves every cell outside the range alone. -/
theorem writeRange_read_outside (m : Mem) (f : Nat → Sample) (b n : Nat) {a : Nat} (h : a < b ∨ b + n ≤ a) :
    (writeRange f b n m).read a = m.read a :=
  scalarLoop_induct (P := fun _ (m' : Mem) => m'.read a = m.read a) rfl
    fun j _ _ hj h' => by rw [Mem.read_write_other _ _ (by omega), h']

/-- A range write leaves its value in every cell of the range. -/
theorem writeRange_read_inside {m : Mem} (f : Nat → Sample) (b n : Nat) {a : Nat} (hm : m.wf) (h : b ≤ a)
    (h' : a < b + n) : (writeRange f b n m).read a = f a := by
  have := scalarLoop_induct (f := fun i (m : Mem) => m.write (b + i) (f (b + i))) (i := 0) (k := n) (st := m)
    (P := fun j (m' : Mem) => m'.wf ∧ ∀ a, b ≤ a → a < b + j → m'.read a = f a) ⟨hm, by omega⟩
    fun j m' _ hj ⟨hw, hr⟩ => ⟨Mem.wf_write _ _ hw, fun a h1 h2 => by
      rw [Mem.read_write _ _ _ hw]
      split_ifs with e
      · rw [e]
      · exact hr a h1 (by omega)⟩
  exact this.2 a h (by omega)

end Sys2Proof.Machine
end

