-- ==== Sys2Proof/Laws/State.lean ====
section
/-! SUPPORT. One lemma per field of State and named update of it, so that no proof unfolds a record update. -/

namespace Sys2Proof.Machine

@[simp] theorem conditionCode_success : conditionCode .success = 0#2 := rfl
@[simp] theorem conditionCode_sizeMismatch : conditionCode .sizeMismatch = 1#2 := rfl
@[simp] theorem conditionCode_illegalCommand : conditionCode .illegalCommand = 2#2 := rfl

/-! ### State.abandon -/

@[simp] theorem State.abandon_ops (s : State) (i : Instr) (t : State) : (s.abandon i t).ops = OperandRegs.zero := rfl
@[simp] theorem State.abandon_res (s : State) (i : Instr) (t : State) : (s.abandon i t).res = 0#32 := rfl
@[simp] theorem State.abandon_code (s : State) (i : Instr) (t : State) : (s.abandon i t).code = 0#2 := rfl
@[simp] theorem State.abandon_mem (s : State) (i : Instr) (t : State) : (s.abandon i t).mem = abandonedMemory i s t := rfl
@[simp] theorem State.abandon_platform (s : State) (i : Instr) (t : State) : (s.abandon i t).platform = s.platform := rfl
@[simp] theorem State.abandon_hostIn (s : State) (i : Instr) (t : State) : (s.abandon i t).hostIn = s.hostIn := rfl
@[simp] theorem State.abandon_hostOut (s : State) (i : Instr) (t : State) : (s.abandon i t).hostOut = s.hostOut := rfl
@[simp] theorem State.abandon_draws (s : State) (i : Instr) (t : State) : (s.abandon i t).draws = t.draws + 1 := rfl

/-! ### State.endWithResult -/

@[simp] theorem State.endWithResult_ops (s : State) (v : Word) : (s.endWithResult v).ops = s.ops := rfl
@[simp] theorem State.endWithResult_res (s : State) (v : Word) : (s.endWithResult v).res = v := rfl
@[simp] theorem State.endWithResult_code (s : State) (v : Word) : (s.endWithResult v).code = 0#2 := rfl
@[simp] theorem State.endWithResult_mem (s : State) (v : Word) : (s.endWithResult v).mem = s.mem := rfl
@[simp] theorem State.endWithResult_platform (s : State) (v : Word) : (s.endWithResult v).platform = s.platform := rfl
@[simp] theorem State.endWithResult_hostIn (s : State) (v : Word) : (s.endWithResult v).hostIn = s.hostIn := rfl
@[simp] theorem State.endWithResult_hostOut (s : State) (v : Word) : (s.endWithResult v).hostOut = s.hostOut := rfl
@[simp] theorem State.endWithResult_draws (s : State) (v : Word) : (s.endWithResult v).draws = s.draws := rfl

/-! ### State.endWithMemory -/

@[simp] theorem State.endWithMemory_ops (s : State) (m : Mem) : (s.endWithMemory m).ops = s.ops := rfl
@[simp] theorem State.endWithMemory_res (s : State) (m : Mem) : (s.endWithMemory m).res = s.res := rfl
@[simp] theorem State.endWithMemory_code (s : State) (m : Mem) : (s.endWithMemory m).code = 0#2 := rfl
@[simp] theorem State.endWithMemory_mem (s : State) (m : Mem) : (s.endWithMemory m).mem = m := rfl
@[simp] theorem State.endWithMemory_platform (s : State) (m : Mem) : (s.endWithMemory m).platform = s.platform := rfl
@[simp] theorem State.endWithMemory_hostIn (s : State) (m : Mem) : (s.endWithMemory m).hostIn = s.hostIn := rfl
@[simp] theorem State.endWithMemory_hostOut (s : State) (m : Mem) : (s.endWithMemory m).hostOut = s.hostOut := rfl
@[simp] theorem State.endWithMemory_draws (s : State) (m : Mem) : (s.endWithMemory m).draws = s.draws := rfl

/-! ### State.raise -/

@[simp] theorem State.raise_ops (s : State) (c : Condition) : (s.raise c).ops = s.ops := rfl
@[simp] theorem State.raise_res (s : State) (c : Condition) : (s.raise c).res = s.res := rfl
@[simp] theorem State.raise_code (s : State) (c : Condition) : (s.raise c).code = conditionCode c := rfl
@[simp] theorem State.raise_mem (s : State) (c : Condition) : (s.raise c).mem = s.mem := rfl
@[simp] theorem State.raise_platform (s : State) (c : Condition) : (s.raise c).platform = s.platform := rfl
@[simp] theorem State.raise_hostIn (s : State) (c : Condition) : (s.raise c).hostIn = s.hostIn := rfl
@[simp] theorem State.raise_hostOut (s : State) (c : Condition) : (s.raise c).hostOut = s.hostOut := rfl
@[simp] theorem State.raise_draws (s : State) (c : Condition) : (s.raise c).draws = s.draws := rfl

/-! ### State.deliver -/

@[simp] theorem State.deliver_ops (s : State) (v : HostValue) : (s.deliver v).ops = s.ops := rfl
@[simp] theorem State.deliver_res (s : State) (v : HostValue) : (s.deliver v).res = s.res := rfl
@[simp] theorem State.deliver_code (s : State) (v : HostValue) : (s.deliver v).code = s.code := rfl
@[simp] theorem State.deliver_mem (s : State) (v : HostValue) : (s.deliver v).mem = s.mem := rfl
@[simp] theorem State.deliver_platform (s : State) (v : HostValue) : (s.deliver v).platform = s.platform := rfl
@[simp] theorem State.deliver_hostIn (s : State) (v : HostValue) : (s.deliver v).hostIn = s.hostIn := rfl
@[simp] theorem State.deliver_hostOut (s : State) (v : HostValue) : (s.deliver v).hostOut = v :: s.hostOut := rfl
@[simp] theorem State.deliver_draws (s : State) (v : HostValue) : (s.deliver v).draws = s.draws := rfl

/-! ### State.resetUnit -/

@[simp] theorem State.resetUnit_ops (s : State) : (s.resetUnit).ops = OperandRegs.zero := rfl
@[simp] theorem State.resetUnit_res (s : State) : (s.resetUnit).res = 0#32 := rfl
@[simp] theorem State.resetUnit_code (s : State) : (s.resetUnit).code = 0#2 := rfl
@[simp] theorem State.resetUnit_mem (s : State) : (s.resetUnit).mem = s.mem := rfl
@[simp] theorem State.resetUnit_platform (s : State) : (s.resetUnit).platform = s.platform := rfl
@[simp] theorem State.resetUnit_hostIn (s : State) : (s.resetUnit).hostIn = s.hostIn := rfl
@[simp] theorem State.resetUnit_hostOut (s : State) : (s.resetUnit).hostOut = s.hostOut := rfl
@[simp] theorem State.resetUnit_draws (s : State) : (s.resetUnit).draws = s.draws := rfl

/-! ### State.endUndefinedOutput -/

@[simp] theorem State.endUndefinedOutput_ops (s : State) (i : Instr) (b n : Nat) : (s.endUndefinedOutput i b n).ops = s.ops := rfl
@[simp] theorem State.endUndefinedOutput_res (s : State) (i : Instr) (b n : Nat) : (s.endUndefinedOutput i b n).res = s.res := rfl
@[simp] theorem State.endUndefinedOutput_code (s : State) (i : Instr) (b n : Nat) : (s.endUndefinedOutput i b n).code = 0#2 := rfl
@[simp] theorem State.endUndefinedOutput_mem (s : State) (i : Instr) (b n : Nat) : (s.endUndefinedOutput i b n).mem = writeRange (Config.overlapCell (s.circumstances i)) b n s.mem := rfl
@[simp] theorem State.endUndefinedOutput_platform (s : State) (i : Instr) (b n : Nat) : (s.endUndefinedOutput i b n).platform = s.platform := rfl
@[simp] theorem State.endUndefinedOutput_hostIn (s : State) (i : Instr) (b n : Nat) : (s.endUndefinedOutput i b n).hostIn = s.hostIn := rfl
@[simp] theorem State.endUndefinedOutput_hostOut (s : State) (i : Instr) (b n : Nat) : (s.endUndefinedOutput i b n).hostOut = s.hostOut := rfl
@[simp] theorem State.endUndefinedOutput_draws (s : State) (i : Instr) (b n : Nat) : (s.endUndefinedOutput i b n).draws = s.draws + 1 := rfl

/-! ### State.withFetchWord -/

@[simp] theorem State.withFetchWord_ops (s : State) (n w : Nat) : (s.withFetchWord n w).ops = s.ops := rfl
@[simp] theorem State.withFetchWord_res (s : State) (n w : Nat) : (s.withFetchWord n w).res = s.res := rfl
@[simp] theorem State.withFetchWord_code (s : State) (n w : Nat) : (s.withFetchWord n w).code = s.code := rfl
@[simp] theorem State.withFetchWord_mem (s : State) (n w : Nat) : (s.withFetchWord n w).mem = s.mem := rfl
@[simp] theorem State.withFetchWord_platform (s : State) (n w : Nat) : (s.withFetchWord n w).platform = s.platform := rfl
@[simp] theorem State.withFetchWord_hostIn (s : State) (n w : Nat) : (s.withFetchWord n w).hostIn = .issue (BitVec.ofNat 32 (w % 2 ^ n)) :: s.hostIn := rfl
@[simp] theorem State.withFetchWord_hostOut (s : State) (n w : Nat) : (s.withFetchWord n w).hostOut = s.hostOut := rfl
@[simp] theorem State.withFetchWord_draws (s : State) (n w : Nat) : (s.withFetchWord n w).draws = s.draws := rfl

end Sys2Proof.Machine

namespace Sys2Proof.Safety

open Sys2Proof.Machine

/-! ### The straps set to a value -/

@[simp] theorem withPacked_ops (b : Bool) (s : State) : (withPacked b s).ops = s.ops := rfl
@[simp] theorem withPacked_res (b : Bool) (s : State) : (withPacked b s).res = s.res := rfl
@[simp] theorem withPacked_code (b : Bool) (s : State) : (withPacked b s).code = s.code := rfl
@[simp] theorem withPacked_mem (b : Bool) (s : State) : (withPacked b s).mem = s.mem := rfl
@[simp] theorem withPacked_hostIn (b : Bool) (s : State) : (withPacked b s).hostIn = s.hostIn := rfl
@[simp] theorem withPacked_hostOut (b : Bool) (s : State) : (withPacked b s).hostOut = s.hostOut := rfl
@[simp] theorem withPacked_draws (b : Bool) (s : State) : (withPacked b s).draws = s.draws := rfl
@[simp] theorem withPacked_packedEn (b : Bool) (s : State) : (withPacked b s).platform.straps.packedEn = b := rfl
@[simp] theorem withPacked_endian (b : Bool) (s : State) : (withPacked b s).platform.straps.endian = s.platform.straps.endian := rfl
@[simp] theorem withPacked_shapeCheckEn (b : Bool) (s : State) : (withPacked b s).platform.straps.shapeCheckEn = s.platform.straps.shapeCheckEn := rfl
@[simp] theorem withPacked_memSamples (b : Bool) (s : State) : (withPacked b s).platform.memSamples = s.platform.memSamples := rfl
@[simp] theorem withPacked_srcA (b : Bool) (s : State) : (withPacked b s).srcA = s.srcA := rfl
@[simp] theorem withPacked_srcB (b : Bool) (s : State) : (withPacked b s).srcB = s.srcB := rfl
@[simp] theorem withPacked_dstA (b : Bool) (s : State) : (withPacked b s).dstA = s.dstA := rfl
@[simp] theorem withPacked_count (b : Bool) (s : State) : (withPacked b s).count = s.count := rfl
@[simp] theorem withPacked_rows (b : Bool) (s : State) : (withPacked b s).rows = s.rows := rfl
@[simp] theorem withPacked_cols (b : Bool) (s : State) : (withPacked b s).cols = s.cols := rfl
@[simp] theorem withPacked_port (b : Bool) (s : State) : (withPacked b s).port = s.port := rfl
@[simp] theorem withPacked_shapeMismatch (b : Bool) (s : State) : (withPacked b s).shapeMismatch = s.shapeMismatch := rfl

@[simp] theorem withEndian_ops (e : Endian) (s : State) : (withEndian e s).ops = s.ops := rfl
@[simp] theorem withEndian_res (e : Endian) (s : State) : (withEndian e s).res = s.res := rfl
@[simp] theorem withEndian_code (e : Endian) (s : State) : (withEndian e s).code = s.code := rfl
@[simp] theorem withEndian_mem (e : Endian) (s : State) : (withEndian e s).mem = s.mem := rfl
@[simp] theorem withEndian_hostIn (e : Endian) (s : State) : (withEndian e s).hostIn = s.hostIn := rfl
@[simp] theorem withEndian_hostOut (e : Endian) (s : State) : (withEndian e s).hostOut = s.hostOut := rfl
@[simp] theorem withEndian_draws (e : Endian) (s : State) : (withEndian e s).draws = s.draws := rfl
@[simp] theorem withEndian_packedEn (e : Endian) (s : State) : (withEndian e s).platform.straps.packedEn = s.platform.straps.packedEn := rfl
@[simp] theorem withEndian_endian (e : Endian) (s : State) : (withEndian e s).platform.straps.endian = e := rfl
@[simp] theorem withEndian_shapeCheckEn (e : Endian) (s : State) : (withEndian e s).platform.straps.shapeCheckEn = s.platform.straps.shapeCheckEn := rfl
@[simp] theorem withEndian_memSamples (e : Endian) (s : State) : (withEndian e s).platform.memSamples = s.platform.memSamples := rfl
@[simp] theorem withEndian_srcA (e : Endian) (s : State) : (withEndian e s).srcA = s.srcA := rfl
@[simp] theorem withEndian_srcB (e : Endian) (s : State) : (withEndian e s).srcB = s.srcB := rfl
@[simp] theorem withEndian_dstA (e : Endian) (s : State) : (withEndian e s).dstA = s.dstA := rfl
@[simp] theorem withEndian_count (e : Endian) (s : State) : (withEndian e s).count = s.count := rfl
@[simp] theorem withEndian_rows (e : Endian) (s : State) : (withEndian e s).rows = s.rows := rfl
@[simp] theorem withEndian_cols (e : Endian) (s : State) : (withEndian e s).cols = s.cols := rfl
@[simp] theorem withEndian_port (e : Endian) (s : State) : (withEndian e s).port = s.port := rfl
@[simp] theorem withEndian_shapeMismatch (e : Endian) (s : State) : (withEndian e s).shapeMismatch = s.shapeMismatch := rfl

end Sys2Proof.Safety
end

