-- ==== Sys2Proof/Laws/Ports.lean ====
section
/-! SUPPORT. What each shared run of the sequencer leaves, said once: the memory after a command with one input, with two
inputs, a fill, a transpose, and the accumulator of a mean (rules R162 to R168, R201, R223 to R225). -/

namespace Sys2Proof.Machine

open Sys2Proof.Safety

/-! ### Pack and unpack -/

theorem e0_pack16 (e : Endian) (l h : Sample) : e0 e (pack16 e l h) = l := by
  cases e
  · exact lane0_lanes h l
  · exact lane1_lanes l h

theorem e1_pack16 (e : Endian) (l h : Sample) : e1 e (pack16 e l h) = h := by
  cases e
  · exact lane1_lanes h l
  · exact lane0_lanes l h

theorem pack16_e0_e1 (e : Endian) (w : Word) : pack16 e (e0 e w) (e1 e w) = w := by
  cases e <;> exact lanes_of_lanes w

/-- `f2` is `f` in each lane (rule R225 fact 3). -/
def Lanewise (f2 : Word → Word) (f : Sample → Sample) : Prop :=
  ∀ w, lane0 (f2 w) = f (lane0 w) ∧ lane1 (f2 w) = f (lane1 w)

/-- `f2` is `f` in each lane of two words (rule R225 fact 3). -/
def Lanewise2 (f2 : Word → Word → Word) (f : Sample → Sample → Sample) : Prop :=
  ∀ v w, lane0 (f2 v w) = f (lane0 v) (lane0 w) ∧ lane1 (f2 v w) = f (lane1 v) (lane1 w)

theorem Lanewise.elements {f2 : Word → Word} {f : Sample → Sample} (h : Lanewise f2 f) (e : Endian) (w : Word) :
    e0 e (f2 w) = f (e0 e w) ∧ e1 e (f2 w) = f (e1 e w) := by
  cases e
  · exact h w
  · exact (h w).symm

theorem Lanewise2.elements {f2 : Word → Word → Word} {f : Sample → Sample → Sample} (h : Lanewise2 f2 f) (e : Endian)
    (v w : Word) : e0 e (f2 v w) = f (e0 e v) (e0 e w) ∧ e1 e (f2 v w) = f (e1 e v) (e1 e w) := by
  cases e
  · exact h v w
  · exact (h v w).symm

/-- A pair write is two single writes, element 0 first (rule R225 fact 2). -/
theorem writePair_pack16 (e : Endian) (m : Mem) (a : Nat) (u v : Sample) :
    m.writePair e a (pack16 e u v) = (m.write a u).write (a + 1) v := by
  unfold Mem.writePair
  rw [e0_pack16, e1_pack16]

/-! ### Commands with one input -/

/-- `M` after `j` elements of a command whose output element `i` at `dst + i` is `f i`. -/
def filled (m : Mem) (dst : Nat) (f : Nat → Sample) (j a : Nat) : Sample :=
  if dst ≤ a ∧ a < dst + j then f (a - dst) else m.read a

/-- One more element written at the front of the filled part. -/
theorem read_write_filled {m m' : Mem} {dst j : Nat} {f : Nat → Sample} (hw : m'.wf)
    (h : ∀ a, m'.read a = filled m dst f j a) (a : Nat) :
    (m'.write (dst + j) (f j)).read a = filled m dst f (j + 1) a := by
  rw [Mem.read_write _ _ _ hw]
  unfold filled at *
  by_cases e : a = dst + j
  · subst e
    rw [if_pos rfl, if_pos ⟨by omega, by omega⟩, show dst + j - dst = j by omega]
  · rw [if_neg e, h]
    by_cases h1 : dst ≤ a ∧ a < dst + j
    · rw [if_pos h1, if_pos ⟨h1.1, by omega⟩]
    · rw [if_neg h1, if_neg (by omega)]

/-- An input cell still to be read has its old content when the output is identical to or disjoint from the input
(rules R74, R225 fact 6). -/
theorem filled_input {m : Mem} {dst src n j k : Nat} {f : Nat → Sample} (hl : Lockstep dst src n) (hj : j ≤ k)
    (hk : k < n) : filled m dst f j (src + k) = m.read (src + k) := by
  unfold filled
  rw [if_neg]
  unfold Lockstep at hl
  omega

theorem unaryPort_spec {s : State} {f : Sample → Sample} {f2 : Word → Word} (hf : Lanewise f2 f) (hm : s.mem.wf)
    (hl : Lockstep s.dstA s.srcA s.count) :
    (s.unaryPort f f2).mem.wf ∧
      ∀ a, (s.unaryPort f f2).mem.read a = vectorEnd s (fun k => f (s.mem.read (s.srcA + k))) a := by
  refine unrolled_induct (P := fun j (p : Port) => p.mem.wf ∧
    ∀ a, p.mem.read a = filled s.mem s.dstA (fun k => f (s.mem.read (s.srcA + k))) j a) ⟨hm, fun a => ?_⟩ ?_ ?_
  · unfold filled; rw [if_neg (by omega)]; rfl
  · intro j p hj ⟨hw, hr⟩
    have h0 : p.mem.read (s.srcA + j) = s.mem.read (s.srcA + j) := by
      rw [hr, filled_input hl (Nat.le_refl j) (by omega)]
    have h1 : p.mem.read (s.srcA + (j + 1)) = s.mem.read (s.srcA + (j + 1)) := by
      rw [hr, filled_input hl (Nat.le_succ j) hj]
    have heq : (unaryPacked s.platform.straps.endian f2 s.srcA s.dstA j p).mem =
        (p.mem.write (s.dstA + j) (f (s.mem.read (s.srcA + j)))).write (s.dstA + (j + 1))
          (f (s.mem.read (s.srcA + (j + 1)))) := by
      simp only [unaryPacked, Port.readPair, Port.writePair, Mem.writePair, Mem.readPair, hf.elements, e0_pack16,
        e1_pack16, h0]
      rw [← h1]
      rfl
    rw [heq]
    have hw1 := Mem.wf_write (s.dstA + j) (f (s.mem.read (s.srcA + j))) hw
    exact ⟨Mem.wf_write _ _ hw1, read_write_filled hw1 (read_write_filled hw hr)⟩
  · intro j p hj ⟨hw, hr⟩
    have h0 : p.mem.read (s.srcA + j) = s.mem.read (s.srcA + j) := by
      rw [hr, filled_input hl (Nat.le_refl j) hj]
    have heq : (unaryScalar f s.srcA s.dstA j p).mem = p.mem.write (s.dstA + j) (f (s.mem.read (s.srcA + j))) := by
      simp only [unaryScalar, Port.readSingle, Port.writeSingle, h0]
    rw [heq]
    exact ⟨Mem.wf_write _ _ hw, read_write_filled hw hr⟩

/-! ### Commands with two inputs -/

theorem binaryPort_spec {s : State} {f : Sample → Sample → Sample} {f2 : Word → Word → Word} (hf : Lanewise2 f2 f)
    (hm : s.mem.wf) (hla : Lockstep s.dstA s.srcA s.count) (hlb : Lockstep s.dstA s.srcB s.count) :
    (s.binaryPort f f2).mem.wf ∧
      ∀ a, (s.binaryPort f f2).mem.read a =
        vectorEnd s (fun k => f (s.mem.read (s.srcA + k)) (s.mem.read (s.srcB + k))) a := by
  refine unrolled_induct (P := fun j (p : Port) => p.mem.wf ∧
    ∀ a, p.mem.read a =
      filled s.mem s.dstA (fun k => f (s.mem.read (s.srcA + k)) (s.mem.read (s.srcB + k))) j a) ⟨hm, fun a => ?_⟩ ?_ ?_
  · unfold filled; rw [if_neg (by omega)]; rfl
  · intro j p hj ⟨hw, hr⟩
    have a0 : p.mem.read (s.srcA + j) = s.mem.read (s.srcA + j) := by
      rw [hr, filled_input hla (Nat.le_refl j) (by omega)]
    have a1 : p.mem.read (s.srcA + (j + 1)) = s.mem.read (s.srcA + (j + 1)) := by
      rw [hr, filled_input hla (Nat.le_succ j) hj]
    have b0 : p.mem.read (s.srcB + j) = s.mem.read (s.srcB + j) := by
      rw [hr, filled_input hlb (Nat.le_refl j) (by omega)]
    have b1 : p.mem.read (s.srcB + (j + 1)) = s.mem.read (s.srcB + (j + 1)) := by
      rw [hr, filled_input hlb (Nat.le_succ j) hj]
    have heq : (binaryPacked s.platform.straps.endian f2 s.srcA s.srcB s.dstA j p).mem =
        (p.mem.write (s.dstA + j) (f (s.mem.read (s.srcA + j)) (s.mem.read (s.srcB + j)))).write (s.dstA + (j + 1))
          (f (s.mem.read (s.srcA + (j + 1))) (s.mem.read (s.srcB + (j + 1)))) := by
      simp only [binaryPacked, Port.readPair, Port.writePair, Mem.writePair, Mem.readPair, hf.elements, e0_pack16,
        e1_pack16, a0, b0]
      rw [← a1, ← b1]
      rfl
    rw [heq]
    have hw1 := Mem.wf_write (s.dstA + j) (f (s.mem.read (s.srcA + j)) (s.mem.read (s.srcB + j))) hw
    exact ⟨Mem.wf_write _ _ hw1, read_write_filled
      (f := fun k => f (s.mem.read (s.srcA + k)) (s.mem.read (s.srcB + k))) hw1 (read_write_filled hw hr)⟩
  · intro j p hj ⟨hw, hr⟩
    have a0 : p.mem.read (s.srcA + j) = s.mem.read (s.srcA + j) := by
      rw [hr, filled_input hla (Nat.le_refl j) hj]
    have b0 : p.mem.read (s.srcB + j) = s.mem.read (s.srcB + j) := by
      rw [hr, filled_input hlb (Nat.le_refl j) hj]
    have heq : (binaryScalar f s.srcA s.srcB s.dstA j p).mem =
        p.mem.write (s.dstA + j) (f (s.mem.read (s.srcA + j)) (s.mem.read (s.srcB + j))) := by
      simp only [binaryScalar, Port.readSingle, Port.writeSingle, a0, b0]
    rw [heq]
    exact ⟨Mem.wf_write _ _ hw, read_write_filled hw hr⟩

/-! ### Fill -/

theorem vfillPort_spec {s : State} (v : Sample) (hm : s.mem.wf) :
    (vfillPort v s).mem.wf ∧ ∀ a, (vfillPort v s).mem.read a = vectorEnd s (fun _ => v) a := by
  refine unrolled_induct (P := fun j (p : Port) => p.mem.wf ∧
    ∀ a, p.mem.read a = filled s.mem s.dstA (fun _ => v) j a) ⟨hm, fun a => ?_⟩ ?_ ?_
  · unfold filled; rw [if_neg (by omega)]; rfl
  · intro j p _ ⟨hw, hr⟩
    have heq : (p.writePair s.platform.straps.endian (s.dstA + j) (pack16 s.platform.straps.endian v v)).mem =
        (p.mem.write (s.dstA + j) v).write (s.dstA + (j + 1)) v := writePair_pack16 ..
    rw [heq]
    have hw1 := Mem.wf_write (s.dstA + j) v hw
    exact ⟨Mem.wf_write _ _ hw1,
      read_write_filled (f := fun _ => v) hw1 (read_write_filled (f := fun _ => v) hw hr)⟩
  · intro j p _ ⟨hw, hr⟩
    exact ⟨Mem.wf_write _ _ hw, read_write_filled (f := fun _ => v) hw hr⟩

/-! ### Mean -/

theorem exactSum_succ (m : Mem) (b n : Nat) : exactSum m b (n + 1) = exactSum m b n + (m.read (b + n)).toInt := by
  simp [exactSum, List.range_succ]

theorem exactSum_range (m : Mem) (b n : Nat) : -(n * 32768 : Int) ≤ exactSum m b n ∧ exactSum m b n ≤ n * 32767 := by
  induction n with
  | zero => simp [exactSum]
  | succ n ih =>
    rw [exactSum_succ]
    have := sample_range (m.read (b + n))
    push_cast
    omega

/-- One addition that stays in the 48-bit range is exact (rule R166). -/
theorem toInt_accumulate {acc : Accumulator} {v : Sample} (h : -140737488355328 ≤ acc.toInt + v.toInt)
    (h' : acc.toInt + v.toInt ≤ 140737488355327) : (accumulate acc v).toInt = acc.toInt + v.toInt := by
  unfold accumulate
  rw [BitVec.toInt_add, BitVec.toInt_signExtend_of_le (by omega), Int.bmod_eq_of_le] <;> omega

/-- The accumulator holds the exact sum, on either path, and memory is not touched (rules R166, R225 fact 5). -/
theorem vmeanRun_spec (s : State) :
    (vmeanRun s).port.mem = s.mem ∧ (vmeanRun s).acc.toInt = exactSum s.mem s.srcA s.count := by
  have hn : s.count < 4294967296 := s.ops.len.isLt
  refine unrolled_induct (P := fun j (r : MeanRun) => r.port.mem = s.mem ∧
    r.acc.toInt = exactSum s.mem s.srcA j) ⟨rfl, by simp [exactSum]⟩ ?_ ?_
  · intro j r hj ⟨hm, ha⟩
    have r1 := exactSum_range s.mem s.srcA (j + 1)
    have r2 := exactSum_range s.mem s.srcA (j + 2)
    rw [exactSum_succ] at r1
    rw [exactSum_succ, exactSum_succ] at r2
    push_cast at r1 r2
    refine ⟨hm, ?_⟩
    have key : ∀ u v : Sample, u.toInt + v.toInt = (s.mem.read (s.srcA + j)).toInt + (s.mem.read (s.srcA + (j + 1))).toInt →
        (accumulate (accumulate r.acc u) v).toInt = exactSum s.mem s.srcA (j + 2) := by
      intro u v huv
      have hu := sample_range u
      have hv := sample_range v
      have e1 : (accumulate r.acc u).toInt = r.acc.toInt + u.toInt := toInt_accumulate (by omega) (by omega)
      rw [toInt_accumulate (by omega) (by omega), e1, exactSum_succ, exactSum_succ]
      omega
    show (accumulate (accumulate r.acc (lane0 (r.port.mem.readPair _ _))) (lane1 (r.port.mem.readPair _ _))).toInt = _
    refine key _ _ ?_
    rw [hm]
    unfold Mem.readPair pack16
    cases s.platform.straps.endian
    · rw [lane0_lanes, lane1_lanes]; rfl
    · rw [lane0_lanes, lane1_lanes, Int.add_comm]; rfl
  · intro j r hj ⟨hm, ha⟩
    have r1 := exactSum_range s.mem s.srcA (j + 1)
    rw [exactSum_succ] at r1
    push_cast at r1
    refine ⟨hm, ?_⟩
    show (accumulate r.acc (r.port.mem.read _)).toInt = _
    rw [hm, toInt_accumulate (by omega) (by omega), exactSum_succ, ha]

/-! ### Transpose -/

/-- `M` in the middle of the walk: rows below `r` are done, and of row `r` the columns below `c`. Destination offset
`k = c*R + r` holds source element `r*C + c`. -/
def transposed (m : Mem) (src dst rows cols r c a : Nat) : Sample :=
  if dst ≤ a ∧ a < dst + rows * cols ∧
      ((a - dst) % rows < r ∨ (a - dst) % rows = r ∧ (a - dst) / rows < c) then
    m.read (src + ((a - dst) % rows) * cols + (a - dst) / rows)
  else m.read a

/-- One more element scattered. -/
theorem read_write_transposed {m m' : Mem} {src dst rows cols r c : Nat} (hr : r < rows) (hc : c < cols) (hw : m'.wf)
    (h : ∀ a, m'.read a = transposed m src dst rows cols r c a) (a : Nat) :
    (m'.write (dst + r + c * rows) (m.read (src + r * cols + c))).read a =
      transposed m src dst rows cols r (c + 1) a := by
  have hmod : (r + c * rows) % rows = r := by rw [Nat.add_mul_mod_self_right, Nat.mod_eq_of_lt hr]
  have hdiv : (r + c * rows) / rows = c := by
    rw [Nat.add_mul_div_right _ _ (by omega), Nat.div_eq_of_lt hr, Nat.zero_add]
  have hlt : r + c * rows < rows * cols := by
    calc r + c * rows < rows + c * rows := by omega
      _ = (c + 1) * rows := by ring
      _ ≤ cols * rows := Nat.mul_le_mul_right _ hc
      _ = rows * cols := Nat.mul_comm ..
  rw [Mem.read_write _ _ _ hw]
  unfold transposed at *
  by_cases e : a = dst + r + c * rows
  · have ek : a - dst = r + c * rows := by omega
    rw [if_pos e, if_pos ⟨by omega, by omega, .inr ⟨by rw [ek, hmod], by rw [ek, hdiv]; omega⟩⟩, ek, hmod, hdiv]
  · rw [if_neg e, h]
    have hiff : dst ≤ a ∧ a < dst + rows * cols ∧
          ((a - dst) % rows < r ∨ (a - dst) % rows = r ∧ (a - dst) / rows < c) ↔
        dst ≤ a ∧ a < dst + rows * cols ∧
          ((a - dst) % rows < r ∨ (a - dst) % rows = r ∧ (a - dst) / rows < c + 1) := by
      constructor
      · rintro ⟨h1, h2, h3⟩; exact ⟨h1, h2, h3.imp id fun q => ⟨q.1, by omega⟩⟩
      · rintro ⟨h1, h2, h3⟩
        refine ⟨h1, h2, h3.imp id fun q => ⟨q.1, ?_⟩⟩
        by_contra hcon
        have hq : (a - dst) / rows = c := by omega
        have := Nat.mod_add_div (a - dst) rows
        rw [q.1, hq, Nat.mul_comm] at this
        omega
    by_cases hb : dst ≤ a ∧ a < dst + rows * cols ∧
        ((a - dst) % rows < r ∨ (a - dst) % rows = r ∧ (a - dst) / rows < c)
    · rw [if_pos hb, if_pos (hiff.1 hb)]
    · rw [if_neg hb, if_neg (mt hiff.2 hb)]

/-- A source cell still to be read has its old content, the ranges being disjoint. -/
theorem transposed_input {m : Mem} {src dst rows cols r c k : Nat} (hd : RangesDisjoint src dst (rows * cols))
    (hk : k < rows * cols) : transposed m src dst rows cols r c (src + k) = m.read (src + k) := by
  unfold transposed
  rw [if_neg]
  unfold RangesDisjoint at hd
  omega

/-- A source row as the walk does it, from column 0 to the last. -/
theorem walkRow_spec {m : Mem} {st : Straps} {src dst rows cols r : Nat} {w : Walk} (hr : r < rows)
    (hd : RangesDisjoint src dst (rows * cols)) (hps : w.ps = src + r * cols) (hw : w.port.mem.wf)
    (hm : ∀ a, w.port.mem.read a = transposed m src dst rows cols r 0 a) :
    (walkRow st rows cols dst r w).ps = src + (r + 1) * cols ∧ (walkRow st rows cols dst r w).port.mem.wf ∧
      ∀ a, (walkRow st rows cols dst r w).port.mem.read a = transposed m src dst rows cols r cols a := by
  have hrc : ∀ {c}, c < cols → r * cols + c < rows * cols := by
    intro c hc
    calc r * cols + c < r * cols + cols := by omega
      _ = (r + 1) * cols := by ring
      _ ≤ rows * cols := Nat.mul_le_mul_right _ hr
  have main := unrolled_induct (b := st.packedEn) (n := cols) (packed := fun _ => scatterPair st.endian rows)
    (scalar := fun _ => scatterSingle rows) (st := { w with pd := dst + r })
    (P := fun c (w : Walk) => w.ps = src + r * cols + c ∧ w.pd = dst + r + c * rows ∧ w.port.mem.wf ∧
      ∀ a, w.port.mem.read a = transposed m src dst rows cols r c a)
    ⟨by simpa using hps, by simp, hw, hm⟩ ?_ ?_
  · refine ⟨?_, main.2.2.1, main.2.2.2⟩
    have := main.1
    rw [Nat.succ_mul, ← Nat.add_assoc]
    exact this
  · rintro c v hc ⟨h1, h2, h3, h4⟩
    have r0 : v.port.mem.read v.ps = m.read (src + r * cols + c) := by
      rw [h4, h1, Nat.add_assoc, transposed_input hd (hrc (by omega))]
    have r1 : v.port.mem.read (v.ps + 1) = m.read (src + r * cols + (c + 1)) := by
      rw [h4, h1, Nat.add_assoc, Nat.add_assoc, transposed_input hd (hrc hc)]
    have heq : (scatterPair st.endian rows v).port.mem =
        (v.port.mem.write (dst + r + c * rows) (m.read (src + r * cols + c))).write (dst + r + (c + 1) * rows)
          (m.read (src + r * cols + (c + 1))) := by
      simp only [scatterPair, Port.readPair, Port.writeSingle, Mem.readPair, e0_pack16, e1_pack16, r0, r1, h2]
      rw [show dst + r + c * rows + rows = dst + r + (c + 1) * rows by ring]
    have hw1 := Mem.wf_write (dst + r + c * rows) (m.read (src + r * cols + c)) h3
    refine ⟨?_, ?_, heq ▸ Mem.wf_write _ _ hw1, ?_⟩
    · show v.ps + 2 = _
      omega
    · show v.pd + rows + rows = _
      rw [h2]; ring
    · rw [heq]
      exact read_write_transposed hr hc hw1 (read_write_transposed hr (by omega) h3 h4)
  · rintro c v hc ⟨h1, h2, h3, h4⟩
    have r0 : v.port.mem.read v.ps = m.read (src + r * cols + c) := by
      rw [h4, h1, Nat.add_assoc, transposed_input hd (hrc hc)]
    have heq : (scatterSingle rows v).port.mem =
        v.port.mem.write (dst + r + c * rows) (m.read (src + r * cols + c)) := by
      simp only [scatterSingle, Port.readSingle, Port.writeSingle, r0, h2]
    refine ⟨?_, ?_, heq ▸ Mem.wf_write _ _ h3, ?_⟩
    · show v.ps + 1 = _
      omega
    · show v.pd + rows = _
      rw [h2]; ring
    · rw [heq]
      exact read_write_transposed hr hc h3 h4

theorem mtransWalk_spec {s : State} (hm : s.mem.wf) (hd : RangesDisjoint s.srcA s.dstA (s.rows * s.cols)) :
    (mtransWalk s).port.mem.wf ∧ ∀ a, (mtransWalk s).port.mem.read a = transposeEnd s a := by
  have main := scalarLoop_induct (f := walkRow s.platform.straps s.rows s.cols s.dstA) (i := 0) (k := s.rows)
    (st := ⟨s.port, s.srcA, s.dstA⟩)
    (P := fun r (w : Walk) => w.ps = s.srcA + r * s.cols ∧ w.port.mem.wf ∧
      ∀ a, w.port.mem.read a = transposed s.mem s.srcA s.dstA s.rows s.cols r 0 a)
    ⟨by simp, hm, fun a => by unfold transposed; rw [if_neg (by simp)]; rfl⟩
    (fun r w _ hr ⟨h1, h2, h3⟩ => by
      obtain ⟨g1, g2, g3⟩ := walkRow_spec (st := s.platform.straps) (by omega : r < s.rows) hd h1 h2 h3
      refine ⟨g1, g2, fun a => ?_⟩
      rw [g3]
      unfold transposed
      have hiff : ∀ k, k < s.rows * s.cols →
          ((k % s.rows < r ∨ k % s.rows = r ∧ k / s.rows < s.cols) ↔
            (k % s.rows < r + 1 ∨ k % s.rows = r + 1 ∧ k / s.rows < 0)) := by
        intro k hk
        have : k / s.rows < s.cols := Nat.div_lt_of_lt_mul hk
        simp only [this, and_true, Nat.not_lt_zero, and_false, or_false]
        omega
      by_cases hb : s.dstA ≤ a ∧ a < s.dstA + s.rows * s.cols
      · simp only [hiff (a - s.dstA) (by omega)]
      · rw [if_neg (by tauto), if_neg (by tauto)])
  refine ⟨main.2.1, fun a => (main.2.2 a).trans ?_⟩
  unfold transposed transposeEnd
  rw [Nat.zero_add]
  by_cases hb : s.dstA ≤ a ∧ a < s.dstA + s.rows * s.cols
  · have hpos : 0 < s.rows := Nat.pos_of_ne_zero fun h0 => by rw [h0, Nat.zero_mul] at hb; omega
    rw [if_pos hb, if_pos ⟨hb.1, hb.2, .inl (Nat.mod_lt _ hpos)⟩]
  · rw [if_neg hb, if_neg (by tauto)]

end Sys2Proof.Machine
end

