-- ==== Sys2Proof/Laws/Commands.lean ====
section
/-! SUPPORT. What a command can do, said once: the checks as the preconditions of Safety.lean, the three ends of a command,
and which cells a command writes. -/

namespace Sys2Proof.Machine

open Sys2Proof.Safety

/-! ### The checks -/

theorem rangeValid_iff (s : State) (b n : Nat) : s.rangeValid b n = true ↔ RangeOk s b n := by
  simp [State.rangeValid, RangeOk]

theorem partlyOverlaps_eq_false_iff (out inp n : Nat) : partlyOverlaps out inp n = false ↔ Lockstep out inp n := by
  unfold partlyOverlaps rangesMeet Lockstep
  by_cases h : out = inp
  · simp [h]
  · simp only [Bool.and_eq_false_iff, decide_eq_false_iff_not, bne_eq_false_iff_eq, h, or_false, false_or]
    omega

theorem rangesMeet_eq_false_iff (a b n : Nat) : rangesMeet a b n = false ↔ RangesDisjoint a b n := by
  unfold rangesMeet RangesDisjoint
  rw [decide_eq_false_iff_not]
  omega

theorem toNat_low_half (w : Word) : dimRows w = w.toNat % 65536 := by
  simp [dimRows, BitVec.extractLsb'_toNat]

theorem toNat_high_half (w : Word) : dimCols w = w.toNat / 65536 := by
  have := w.isLt
  simp only [dimCols, BitVec.extractLsb'_toNat, Nat.shiftRight_eq_div_pow]
  omega

theorem shapeMismatch_eq_false_iff (s : State) : s.shapeMismatch = false ↔ ShapeAccepted s := by
  unfold State.shapeMismatch State.cols State.rows
  simp only [toNat_low_half, toNat_high_half]
  cases h : s.platform.straps.shapeCheckEn <;> simp [h]

/-! ### The ends of a command -/

/-- A memory command ends in one of three ways. -/
theorem endMemoryCommand_cases (s : State) (i : Instr) (valid overlap : Bool) (b n : Nat) (m : Mem) :
    valid = false ∧ s.endMemoryCommand i valid overlap b n m = .fault .invalidAddress ∨
    valid = true ∧ overlap = true ∧ s.endMemoryCommand i valid overlap b n m = .next (s.endUndefinedOutput i b n) ∨
    valid = true ∧ overlap = false ∧ s.endMemoryCommand i valid overlap b n m = .next (s.endWithMemory m) := by
  cases valid <;> cases overlap <;> simp [State.endMemoryCommand]

theorem endMemoryCommand_of_ok {s : State} {i : Instr} {valid overlap : Bool} {b n : Nat} {m : Mem} (hv : valid = true)
    (ho : overlap = false) : s.endMemoryCommand i valid overlap b n m = .next (s.endWithMemory m) := by
  simp [State.endMemoryCommand, hv, ho]

theorem endMemoryCommand_of_overlap {s : State} {i : Instr} {valid overlap : Bool} {b n : Nat} {m : Mem}
    (hv : valid = true) (ho : overlap = true) :
    s.endMemoryCommand i valid overlap b n m = .next (s.endUndefinedOutput i b n) := by
  simp [State.endMemoryCommand, hv, ho]

theorem endMemoryCommand_of_invalid {s : State} {i : Instr} {valid overlap : Bool} {b n : Nat} {m : Mem}
    (hv : valid = false) : s.endMemoryCommand i valid overlap b n m = .fault .invalidAddress := by
  simp [State.endMemoryCommand, hv]

theorem unaryValid_iff (s : State) : s.unaryValid = true ↔ RangeOk s s.srcA s.count ∧ RangeOk s s.dstA s.count := by
  simp only [State.unaryValid, Bool.and_eq_true, rangeValid_iff]

theorem binaryValid_iff (s : State) : s.binaryValid = true ↔
    RangeOk s s.srcA s.count ∧ RangeOk s s.srcB s.count ∧ RangeOk s s.dstA s.count := by
  simp only [State.binaryValid, unaryValid_iff, Bool.and_eq_true, rangeValid_iff]
  tauto

theorem mtransValid_iff (s : State) : s.mtransValid = true ↔
    RangeOk s s.srcA (s.rows * s.cols) ∧ RangeOk s s.dstA (s.rows * s.cols) := by
  simp only [State.mtransValid, Bool.and_eq_true, rangeValid_iff]

theorem unaryOverlap_eq_false_iff (s : State) : s.unaryOverlap = false ↔ Lockstep s.dstA s.srcA s.count :=
  partlyOverlaps_eq_false_iff ..

theorem binaryOverlap_eq_false_iff (s : State) : s.binaryOverlap = false ↔
    Lockstep s.dstA s.srcA s.count ∧ Lockstep s.dstA s.srcB s.count := by
  simp only [State.binaryOverlap, State.unaryOverlap, Bool.or_eq_false_iff, partlyOverlaps_eq_false_iff]

theorem mtransOverlap_eq_false_iff (s : State) :
    s.mtransOverlap = false ↔ RangesDisjoint s.srcA s.dstA (s.rows * s.cols) := rangesMeet_eq_false_iff ..

/-- A command with one input, on valid ranges without a forbidden overlap, leaves the memory of its run. -/
theorem endUnary_of_ok {s : State} {i : Instr} {p : Port} (h1 : RangeOk s s.srcA s.count) (h2 : RangeOk s s.dstA s.count)
    (h3 : Lockstep s.dstA s.srcA s.count) : s.endUnary i p = .next (s.endWithMemory p.mem) :=
  endMemoryCommand_of_ok ((unaryValid_iff s).2 ⟨h1, h2⟩) ((unaryOverlap_eq_false_iff s).2 h3)

/-- A command with two inputs, on valid ranges without a forbidden overlap, leaves the memory of its run. -/
theorem endBinary_of_ok {s : State} {i : Instr} {p : Port} (h1 : RangeOk s s.srcA s.count) (h2 : RangeOk s s.srcB s.count)
    (h3 : RangeOk s s.dstA s.count) (h4 : Lockstep s.dstA s.srcA s.count) (h5 : Lockstep s.dstA s.srcB s.count) :
    s.endBinary i p = .next (s.endWithMemory p.mem) :=
  endMemoryCommand_of_ok ((binaryValid_iff s).2 ⟨h1, h2, h3⟩) ((binaryOverlap_eq_false_iff s).2 ⟨h4, h5⟩)

/-- A command whose end is a next state leaves the operand registers, the platform and the host port as they were. -/
theorem endMemoryCommand_frame {s t : State} {i : Instr} {valid overlap : Bool} {b n : Nat} {m : Mem}
    (h : s.endMemoryCommand i valid overlap b n m = .next t) :
    t.ops = s.ops ∧ t.res = s.res ∧ t.code = 0#2 ∧ t.platform = s.platform ∧ t.hostIn = s.hostIn ∧
      t.hostOut = s.hostOut := by
  rcases endMemoryCommand_cases s i valid overlap b n m with ⟨-, e⟩ | ⟨-, -, e⟩ | ⟨-, -, e⟩ <;> rw [e] at h <;>
    cases h <;> exact ⟨rfl, rfl, rfl, rfl, rfl, rfl⟩

/-- A property of memories that every write in the output range keeps holds after a memory command if the command's own
run keeps it. -/
theorem endMemoryCommand_mem {s t : State} {i : Instr} {valid overlap : Bool} {b n : Nat} {m : Mem} {Q : Mem → Prop}
    (h : s.endMemoryCommand i valid overlap b n m = .next t) (h0 : Q s.mem) (hm : Q m)
    (hw : ∀ m k v, k < n → Q m → Q (m.write (b + k) v)) : Q t.mem := by
  rcases endMemoryCommand_cases s i valid overlap b n m with ⟨-, e⟩ | ⟨-, -, e⟩ | ⟨-, -, e⟩ <;> rw [e] at h <;> cases h
  · exact scalarLoop_induct (P := fun _ m => Q m) h0 fun j m _ hj hq => hw m j _ (by omega) hq
  · exact hm

/-! ### The writes of a run -/

theorem unaryPort_writes {s : State} {f : Sample → Sample} {f2 : Word → Word} {Q : Mem → Prop} (h0 : Q s.mem)
    (hw : ∀ m k v, k < s.count → Q m → Q (m.write (s.dstA + k) v)) : Q (s.unaryPort f f2).mem :=
  unrolled_induct (P := fun _ (p : Port) => Q p.mem) h0
    (fun j p hj hq => hw _ (j + 1) _ hj (hw p.mem j _ (by omega) hq)) (fun j p hj hq => hw p.mem j _ hj hq)

theorem binaryPort_writes {s : State} {f : Sample → Sample → Sample} {f2 : Word → Word → Word} {Q : Mem → Prop}
    (h0 : Q s.mem) (hw : ∀ m k v, k < s.count → Q m → Q (m.write (s.dstA + k) v)) : Q (s.binaryPort f f2).mem :=
  unrolled_induct (P := fun _ (p : Port) => Q p.mem) h0
    (fun j p hj hq => hw _ (j + 1) _ hj (hw p.mem j _ (by omega) hq)) (fun j p hj hq => hw p.mem j _ hj hq)

theorem vfillPort_writes {s : State} {v : Sample} {Q : Mem → Prop} (h0 : Q s.mem)
    (hw : ∀ m k v, k < s.count → Q m → Q (m.write (s.dstA + k) v)) : Q (vfillPort v s).mem :=
  unrolled_induct (P := fun _ (p : Port) => Q p.mem) h0
    (fun j p hj hq => hw _ (j + 1) _ hj (hw p.mem j _ (by omega) hq)) (fun j p hj hq => hw p.mem j _ hj hq)

/-- A destination element of the walk lies in the output range. -/
theorem walk_offset_lt {rows cols r c : Nat} (hr : r < rows) (hc : c < cols) : r + c * rows < rows * cols := by
  calc r + c * rows < rows + c * rows := by omega
    _ = (c + 1) * rows := by ring
    _ ≤ cols * rows := Nat.mul_le_mul_right _ hc
    _ = rows * cols := Nat.mul_comm ..

theorem walkRow_writes {st : Straps} {rows cols dst r : Nat} {w : Walk} {Q : Mem → Prop} (hr : r < rows)
    (h0 : Q w.port.mem) (hw : ∀ m k v, k < rows * cols → Q m → Q (m.write (dst + k) v)) :
    Q (walkRow st rows cols dst r w).port.mem := by
  have main := unrolled_induct (b := st.packedEn) (n := cols) (packed := fun _ => scatterPair st.endian rows)
    (scalar := fun _ => scatterSingle rows) (st := { w with pd := dst + r })
    (P := fun c (w : Walk) => w.pd = dst + (r + c * rows) ∧ Q w.port.mem) ⟨by simp, h0⟩ ?_ ?_
  · exact main.2
  · rintro c v hc ⟨hpd, hq⟩
    have e : v.pd + rows = dst + (r + (c + 1) * rows) := by rw [hpd]; ring
    refine ⟨?_, ?_⟩
    · show v.pd + rows + rows = _
      rw [hpd]; ring
    · show Q ((v.port.mem.write v.pd _).write (v.pd + rows) _)
      rw [e, hpd]
      exact hw _ _ _ (walk_offset_lt hr hc) (hw _ _ _ (walk_offset_lt hr (by omega)) hq)
  · rintro c v hc ⟨hpd, hq⟩
    refine ⟨?_, ?_⟩
    · show v.pd + rows = _
      rw [hpd]; ring
    · show Q (v.port.mem.write v.pd _)
      rw [hpd]
      exact hw _ _ _ (walk_offset_lt hr hc) hq

theorem mtransWalk_writes {s : State} {Q : Mem → Prop} (h0 : Q s.mem)
    (hw : ∀ m k v, k < s.rows * s.cols → Q m → Q (m.write (s.dstA + k) v)) : Q (mtransWalk s).port.mem :=
  scalarLoop_induct (P := fun _ (w : Walk) => Q w.port.mem) h0 fun r w _ hr hq => walkRow_writes (by omega) hq hw

/-- A property of memories that every write in a command's output range keeps is kept by the command. -/
theorem exec_mem {i : Instr} {s t : State} {Q : Mem → Prop} (h : exec i s = .next t) (h0 : Q s.mem)
    (hw : ∀ m k v, k < (outputRange i s).2 → Q m → Q (m.write ((outputRange i s).1 + k) v)) : Q t.mem := by
  cases i with
  | sat => cases h; exact h0
  | clz => cases h; exact h0
  | pack16 => cases h; exact h0
  | unpk0 => cases h; exact h0
  | unpk1 => cases h; exact h0
  | qadd16x2 => cases h; exact h0
  | qsub16x2 => cases h; exact h0
  | vfill v => exact endMemoryCommand_mem h h0 (vfillPort_writes h0 hw) hw
  | vcopy => exact endMemoryCommand_mem h h0 (unaryPort_writes h0 hw) hw
  | vadd => exact endMemoryCommand_mem h h0 (binaryPort_writes h0 hw) hw
  | vsub => exact endMemoryCommand_mem h h0 (binaryPort_writes h0 hw) hw
  | vmean =>
    simp only [exec, execVmean] at h
    split_ifs at h <;> cases h <;> exact h0
  | vshift n => exact endMemoryCommand_mem h h0 (unaryPort_writes h0 hw) hw
  | vabs => exact endMemoryCommand_mem h h0 (unaryPort_writes h0 hw) hw
  | mtrans =>
    simp only [exec, execMtrans] at h
    simp only [outputRange] at hw
    split_ifs at h hw with hs
    · cases h; exact h0
    · exact endMemoryCommand_mem h h0 (mtransWalk_writes h0 hw) hw

/-- What no command changes: the operand registers, the platform and the host port (rules R30, R42). -/
theorem exec_frame {i : Instr} {s t : State} (h : exec i s = .next t) :
    t.ops = s.ops ∧ t.platform = s.platform ∧ t.hostIn = s.hostIn ∧ t.hostOut = s.hostOut := by
  cases i with
  | sat => cases h; exact ⟨rfl, rfl, rfl, rfl⟩
  | clz => cases h; exact ⟨rfl, rfl, rfl, rfl⟩
  | pack16 => cases h; exact ⟨rfl, rfl, rfl, rfl⟩
  | unpk0 => cases h; exact ⟨rfl, rfl, rfl, rfl⟩
  | unpk1 => cases h; exact ⟨rfl, rfl, rfl, rfl⟩
  | qadd16x2 => cases h; exact ⟨rfl, rfl, rfl, rfl⟩
  | qsub16x2 => cases h; exact ⟨rfl, rfl, rfl, rfl⟩
  | vfill => obtain ⟨h1, -, -, h2, h3, h4⟩ := endMemoryCommand_frame h; exact ⟨h1, h2, h3, h4⟩
  | vcopy => obtain ⟨h1, -, -, h2, h3, h4⟩ := endMemoryCommand_frame h; exact ⟨h1, h2, h3, h4⟩
  | vadd => obtain ⟨h1, -, -, h2, h3, h4⟩ := endMemoryCommand_frame h; exact ⟨h1, h2, h3, h4⟩
  | vsub => obtain ⟨h1, -, -, h2, h3, h4⟩ := endMemoryCommand_frame h; exact ⟨h1, h2, h3, h4⟩
  | vmean =>
    simp only [exec, execVmean] at h
    split_ifs at h <;> cases h <;> exact ⟨rfl, rfl, rfl, rfl⟩
  | vshift => obtain ⟨h1, -, -, h2, h3, h4⟩ := endMemoryCommand_frame h; exact ⟨h1, h2, h3, h4⟩
  | vabs => obtain ⟨h1, -, -, h2, h3, h4⟩ := endMemoryCommand_frame h; exact ⟨h1, h2, h3, h4⟩
  | mtrans =>
    simp only [exec, execMtrans] at h
    split_ifs at h with hs
    · cases h; exact ⟨rfl, rfl, rfl, rfl⟩
    · obtain ⟨h1, -, -, h2, h3, h4⟩ := endMemoryCommand_frame h; exact ⟨h1, h2, h3, h4⟩

/-! ### The cells a vector command leaves -/

theorem vectorEnd_inside (s : State) (f : Nat → Sample) {k : Nat} (hk : k < s.count) :
    vectorEnd s f (s.dstA + k) = f k := by
  unfold vectorEnd
  rw [if_pos (by omega), show s.dstA + k - s.dstA = k by omega]

theorem vectorEnd_outside (s : State) (f : Nat → Sample) {a : Nat} (h : a < s.dstA ∨ s.dstA + s.count ≤ a) :
    vectorEnd s f a = s.mem.read a := by
  unfold vectorEnd
  rw [if_neg (by omega)]

/-! ### The lane functions -/

theorem lanewise_id : Lanewise id id := fun _ => ⟨rfl, rfl⟩

theorem lanewise_shiftPipeline (n : Int) : Lanewise (fun w => shiftPipeline16x2 w n) (fun x => shiftPipeline x n) :=
  fun _ => ⟨lane0_lanes .., lane1_lanes ..⟩

theorem scalarAdd_eq_qadd16 (a b : Sample) : scalarAdd a b = qadd16 a b := by
  have := sample_range a
  have := sample_range b
  unfold scalarAdd qadd16
  rw [lane0_sat16, toInt_ofInt32 (by omega) (by omega)]

theorem scalarSub_eq_qsub16 (a b : Sample) : scalarSub a b = qsub16 a b := by
  have := sample_range a
  have := sample_range b
  unfold scalarSub qsub16
  rw [lane0_sat16, toInt_ofInt32 (by omega) (by omega)]

theorem lanewise_qadd16 : Lanewise2 qadd16x2 scalarAdd := fun v w => by
  simp only [scalarAdd_eq_qadd16]
  exact ⟨lane0_lanes .., lane1_lanes ..⟩

theorem lanewise_qsub16 : Lanewise2 qsub16x2 scalarSub := fun v w => by
  simp only [scalarSub_eq_qsub16]
  exact ⟨lane0_lanes .., lane1_lanes ..⟩

/-! ### Steps and moves -/

theorem step_nil {s : State} (h : s.hostIn = []) : step s = .next s := by
  unfold step; rw [h]

theorem step_cons {s : State} {m : HostMove} {rest : List HostMove} (h : s.hostIn = m :: rest) :
    step s = State.move { s with hostIn := rest } m := by
  unfold step; rw [h]

theorem issue_ok {s : State} {c : Word} {i : Instr} (h : decode c = .ok i) : s.issue c = exec i s := by
  unfold State.issue; rw [h]

theorem issue_error {s : State} {c : Word} {r : Illegal} (h : decode c = .error r) :
    s.issue c = .next (s.raise .illegalCommand) := by
  unfold State.issue; rw [h]

theorem atCell_next {s t u : State} {a : Nat} (h : s.atCell a t = .next u) : a < s.platform.memSamples.val ∧ u = t := by
  unfold State.atCell at h
  split_ifs at h with ha
  cases h
  exact ⟨ha, rfl⟩

/-- Every next state of `resetDuring` is a reset unit; its memory is the old one or the abandoned one (rule R271). -/
theorem resetDuring_next {s u : State} {c : Word} (h : s.resetDuring c = .next u) :
    (∃ r, decode c = .error r) ∧ u = s.resetUnit ∨
      ∃ i t, decode c = .ok i ∧ exec i s = .next t ∧
        u = s.abandon i t := by
  unfold State.resetDuring at h
  split at h
  · cases h; exact .inl ⟨⟨_, ‹_›⟩, rfl⟩
  · split at h <;> cases h
    exact .inr ⟨_, _, ‹_›, ‹_›, rfl⟩

end Sys2Proof.Machine
end

