-- ==== Sys2Proof/Laws/Decode.lean ====
section
/-! SUPPORT. The fields of a command word and the word of three fields (rule R91). -/

namespace Sys2Proof

theorem toNat_commandWord (imm : BitVec 16) (op : BitVec 8) :
    (commandWord imm op).toNat = imm.toNat * 65536 + op.toNat := by
  have h : (commandWord imm op).toNat = ((imm.toNat <<< 8 ||| 0) <<< 8) ||| op.toNat := by
    unfold commandWord
    rw [BitVec.toNat_append, BitVec.toNat_append]
    rfl
  have := op.isLt
  rw [h, Nat.or_zero, ← Nat.shiftLeft_add, ← Nat.shiftLeft_add_eq_or_of_lt (by omega), Nat.shiftLeft_eq]

@[simp] theorem opcodeField_commandWord (imm : BitVec 16) (op : BitVec 8) : opcodeField (commandWord imm op) = op := by
  apply BitVec.eq_of_toNat_eq
  have := op.isLt
  rw [opcodeField, BitVec.extractLsb'_toNat, toNat_commandWord, Nat.shiftRight_zero]
  omega

@[simp] theorem zeroField_commandWord (imm : BitVec 16) (op : BitVec 8) : zeroField (commandWord imm op) = 0#8 := by
  apply BitVec.eq_of_toNat_eq
  have := op.isLt
  rw [zeroField, BitVec.extractLsb'_toNat, toNat_commandWord, Nat.shiftRight_eq_div_pow]
  simp
  omega

@[simp] theorem imm16Field_commandWord (imm : BitVec 16) (op : BitVec 8) : imm16Field (commandWord imm op) = imm := by
  apply BitVec.eq_of_toNat_eq
  have := op.isLt
  have := imm.isLt
  rw [imm16Field, BitVec.extractLsb'_toNat, toNat_commandWord, Nat.shiftRight_eq_div_pow]
  omega

/-- A word whose `zero` field is 0x00 is the word of its other two fields. -/
theorem commandWord_of_fields {c : Word} (h : zeroField c = 0x00#8) :
    commandWord (imm16Field c) (opcodeField c) = c := by
  apply BitVec.eq_of_toNat_eq
  have hz := congrArg BitVec.toNat h
  have := c.isLt
  rw [zeroField, BitVec.extractLsb'_toNat, Nat.shiftRight_eq_div_pow] at hz
  rw [toNat_commandWord, imm16Field, opcodeField, BitVec.extractLsb'_toNat, BitVec.extractLsb'_toNat,
    Nat.shiftRight_eq_div_pow, Nat.shiftRight_zero]
  simp at hz
  omega

/-! ### Inversion of the decoder -/

theorem decodeFormatN_ok {imm : BitVec 16} {i j : Instr} (h : decodeFormatN imm i = .ok j) : imm = 0#16 ∧ j = i := by
  unfold decodeFormatN at h
  split_ifs at h with h0
  exact ⟨h0, (Except.ok.inj h).symm⟩

theorem decodeUnpack_ok {imm : BitVec 16} {j : Instr} (h : decodeUnpack imm = .ok j) :
    imm = 0#16 ∧ j = .unpk0 ∨ imm = 1#16 ∧ j = .unpk1 := by
  unfold decodeUnpack at h
  split_ifs at h with h0 h1
  · exact .inl ⟨h0, (Except.ok.inj h).symm⟩
  · exact .inr ⟨h1, (Except.ok.inj h).symm⟩

/-- What a legal opcode and immediate decode to: a command with a free immediate, or the command of a word with every bit
pinned (rule R94). -/
theorem decodeOpcode_ok {op : BitVec 8} {imm : BitVec 16} {i : Instr} (h : decodeOpcode op imm = .ok i) :
    op = 0x01#8 ∧ i = .sat imm.toNat ∨ op = 0x10#8 ∧ i = .vfill imm ∨ op = 0x15#8 ∧ i = .vshift imm.toInt ∨
      op = 0x02#8 ∧ imm = 0#16 ∧ i = .clz ∨ op = 0x03#8 ∧ imm = 0#16 ∧ i = .pack16 ∨
      op = 0x04#8 ∧ imm = 0#16 ∧ i = .unpk0 ∨ op = 0x04#8 ∧ imm = 1#16 ∧ i = .unpk1 ∨
      op = 0x05#8 ∧ imm = 0#16 ∧ i = .qadd16x2 ∨ op = 0x06#8 ∧ imm = 0#16 ∧ i = .qsub16x2 ∨
      op = 0x11#8 ∧ imm = 0#16 ∧ i = .vcopy ∨ op = 0x12#8 ∧ imm = 0#16 ∧ i = .vadd ∨
      op = 0x13#8 ∧ imm = 0#16 ∧ i = .vsub ∨ op = 0x14#8 ∧ imm = 0#16 ∧ i = .vmean ∨
      op = 0x16#8 ∧ imm = 0#16 ∧ i = .vabs ∨ op = 0x20#8 ∧ imm = 0#16 ∧ i = .mtrans := by
  unfold decodeOpcode at h
  by_cases ho : op = 0x01#8
  · rw [if_pos ho] at h; simp [ho, (Except.ok.inj h).symm]
  rw [if_neg ho] at h; clear ho
  by_cases ho : op = 0x02#8
  · rw [if_pos ho] at h; simp [ho, decodeFormatN_ok h]
  rw [if_neg ho] at h; clear ho
  by_cases ho : op = 0x03#8
  · rw [if_pos ho] at h; simp [ho, decodeFormatN_ok h]
  rw [if_neg ho] at h; clear ho
  by_cases ho : op = 0x04#8
  · rw [if_pos ho] at h; rcases decodeUnpack_ok h with ⟨h1, h2⟩ | ⟨h1, h2⟩ <;> simp [ho, h1, h2]
  rw [if_neg ho] at h; clear ho
  by_cases ho : op = 0x05#8
  · rw [if_pos ho] at h; simp [ho, decodeFormatN_ok h]
  rw [if_neg ho] at h; clear ho
  by_cases ho : op = 0x06#8
  · rw [if_pos ho] at h; simp [ho, decodeFormatN_ok h]
  rw [if_neg ho] at h; clear ho
  by_cases ho : op = 0x10#8
  · rw [if_pos ho] at h; simp [ho, (Except.ok.inj h).symm]
  rw [if_neg ho] at h; clear ho
  by_cases ho : op = 0x11#8
  · rw [if_pos ho] at h; simp [ho, decodeFormatN_ok h]
  rw [if_neg ho] at h; clear ho
  by_cases ho : op = 0x12#8
  · rw [if_pos ho] at h; simp [ho, decodeFormatN_ok h]
  rw [if_neg ho] at h; clear ho
  by_cases ho : op = 0x13#8
  · rw [if_pos ho] at h; simp [ho, decodeFormatN_ok h]
  rw [if_neg ho] at h; clear ho
  by_cases ho : op = 0x14#8
  · rw [if_pos ho] at h; simp [ho, decodeFormatN_ok h]
  rw [if_neg ho] at h; clear ho
  by_cases ho : op = 0x15#8
  · rw [if_pos ho] at h; simp [ho, (Except.ok.inj h).symm]
  rw [if_neg ho] at h; clear ho
  by_cases ho : op = 0x16#8
  · rw [if_pos ho] at h; simp [ho, decodeFormatN_ok h]
  rw [if_neg ho] at h; clear ho
  by_cases ho : op = 0x20#8
  · rw [if_pos ho] at h; simp [ho, decodeFormatN_ok h]
  rw [if_neg ho] at h; clear ho
  cases h

end Sys2Proof
end

