-- ==== Sys2Proof/Laws/PerInstr.lean ====
section
/-! SUPPORT. Lemmas made per instruction: the word of a command is a word of its own row of the opcode map (rules R94,
R101). -/

namespace Sys2Proof.Laws.TableRow

/-- The row of the opcode map with the command's mnemonic selects the command's word. -/
def Statement (i : Instr) : Prop := ∃ r ∈ opcodeMap, r.mnemonic = i.mnemonic ∧ r.selects (encode i) = true

/-- The low 16 bits of a command word are its opcode. -/
theorem commandWord_low (imm : BitVec 16) (op : BitVec 8) :
    commandWord imm op &&& 0x0000FFFF#32 = op.setWidth 32 := by
  apply BitVec.eq_of_getLsbD_eq
  intro k hk
  unfold commandWord
  have hmask : (0x0000FFFF#32).getLsbD k = decide (k < 16) := by revert k; decide
  have happ : (imm ++ 0x00#8 ++ op : BitVec (16 + 8 + 8)).getLsbD k =
      if k < 8 then op.getLsbD k else if k - 8 < 8 then false else imm.getLsbD (k - 8 - 8) := by
    simp only [BitVec.getLsbD_append, BitVec.getLsbD_zero]
  rw [BitVec.getLsbD_and, hmask, BitVec.getLsbD_setWidth]
  refine (congrArg (· && decide (k < 16)) happ).trans ?_
  by_cases h8 : k < 8
  · simp [h8, show k < 16 by omega, hk]
  · by_cases h16 : k < 16
    · simp [h8, h16, show k - 8 < 8 by omega, BitVec.getLsbD_of_ge op k (by omega)]
    · simp [h16, BitVec.getLsbD_of_ge op k (by omega)]

/-- The row of a command with a free immediate. -/
theorem selects_of_immediate {i : Instr} {imm : BitVec 16} {op : BitVec 8} {r : OpcodeRow} (hr : r ∈ opcodeMap)
    (hn : r.mnemonic = i.mnemonic) (he : encode i = commandWord imm op) (hm : r.mask = 0x0000FFFF#32)
    (hw : r.matchWord = op.setWidth 32) : Statement i :=
  ⟨r, hr, hn, by rw [OpcodeRow.selects, he, hm, hw, commandWord_low, beq_self_eq_true]⟩

theorem sat (bits : Nat) : Statement (.sat bits) :=
  selects_of_immediate (r := ⟨"SAT", 0x00000001#32, 0x0000FFFF#32⟩) (by decide) rfl rfl rfl rfl
theorem clz : Statement .clz := by unfold Statement; decide
theorem pack16 : Statement .pack16 := by unfold Statement; decide
theorem unpk0 : Statement .unpk0 := by unfold Statement; decide
theorem unpk1 : Statement .unpk1 := by unfold Statement; decide
theorem qadd16x2 : Statement .qadd16x2 := by unfold Statement; decide
theorem qsub16x2 : Statement .qsub16x2 := by unfold Statement; decide
theorem vfill (value : Sample) : Statement (.vfill value) :=
  selects_of_immediate (r := ⟨"VFILL", 0x00000010#32, 0x0000FFFF#32⟩) (by decide) rfl rfl rfl rfl
theorem vcopy : Statement .vcopy := by unfold Statement; decide
theorem vadd : Statement .vadd := by unfold Statement; decide
theorem vsub : Statement .vsub := by unfold Statement; decide
theorem vmean : Statement .vmean := by unfold Statement; decide
theorem vshift (shiftBits : Int) : Statement (.vshift shiftBits) :=
  selects_of_immediate (r := ⟨"VSHIFT", 0x00000015#32, 0x0000FFFF#32⟩) (by decide) rfl rfl rfl rfl
theorem vabs : Statement .vabs := by unfold Statement; decide
theorem mtrans : Statement .mtrans := by unfold Statement; decide

end Sys2Proof.Laws.TableRow
end

