-- ==== Sys2Proof/Tests/Slice0.lean ====
section
/-! SUPPORT. Small tests with expected values from spec/95_test_vectors.md (or worked by hand from the cited rule), the
refusals of WellFormed.lean, and for every obligation with hypotheses a state that meets them. -/

namespace Sys2Proof.Tests

open Sys2Proof.Machine Sys2Proof.Safety

/-! ### Helpers -/

/-- The Samples of a list in consecutive cells from `base`. -/
def store (base : Nat) : List Sample → Mem → Mem
  | [], m => m
  | v :: vs, m => store (base + 1) vs (m.write base v)

/-- A reset unit with 4096 cells, given straps, operand registers and memory. -/
def unitWith (packed : Bool) (e : Endian) (check : Bool) (x : OperandRegs) (m : Mem) : State :=
  { State.resetOn { straps := ⟨packed, e, check⟩, memSamples := ⟨4096, by decide⟩ } m with ops := x }

/-- The same result on both paths and under both straps. -/
def onEveryStrap (test : Bool → Endian → Bool) : Bool :=
  test true .little && test true .big && test false .little && test false .big

def resOf : Host.Outcome State Fault Refusal → Option Word
  | .next t => some t.res
  | .fault _ => none
  | .refused _ => none

def codeOf : Host.Outcome State Fault Refusal → Option (BitVec 2)
  | .next t => some t.code
  | .fault _ => none
  | .refused _ => none

/-- The `n` cells from `base` after a step. -/
def cellsOf (base n : Nat) : Host.Outcome State Fault Refusal → Option (List Sample)
  | .next t => some ((List.range n).map fun k => t.mem.read (base + k))
  | .fault _ => none
  | .refused _ => none

def hostOutOf : Host.Outcome State Fault Refusal → Option (List HostValue)
  | .next t => some t.hostOut
  | .fault _ => none
  | .refused _ => none

def faultOf : Host.Outcome State Fault Refusal → Option Fault
  | .next _ => none
  | .fault f => some f
  | .refused _ => none

/-- A unit with only `OPA` and `OPB` written. -/
def opUnit (e : Endian) (a b : Word) : State := unitWith true e true { OperandRegs.zero with opa := a, opb := b } []

/-- A unit with its vector registers written. -/
def vecUnit (packed : Bool) (e : Endian) (srca srcb dst len : Word) (m : Mem) : State :=
  unitWith packed e true { OperandRegs.zero with srca := srca, srcb := srcb, dst := dst, len := len } m

/-- A unit with its matrix registers written. -/
def matUnit (packed : Bool) (e : Endian) (check : Bool) (sdim ddim : Word) (m : Mem) : State :=
  unitWith packed e check { OperandRegs.zero with srca := 0x600#32, dst := 0x700#32, sdim := sdim, ddim := ddim } m

/-! ### WellFormed refuses what no word holds (rules R93, R98) -/

theorem test_wf_refuses_wide_bits : (Instr.sat 65536).wellFormed = false := by decide
theorem test_wf_refuses_large_shift : (Instr.vshift 32768).wellFormed = false := by decide
theorem test_wf_refuses_small_shift : (Instr.vshift (-32769)).wellFormed = false := by decide
theorem test_wf_accepts_bounds :
    (Instr.sat 65535).wellFormed = true ∧ (Instr.vshift 32767).wellFormed = true ∧
      (Instr.vshift (-32768)).wellFormed = true := by decide

/-! ### Decoding, each word from the rows of rule R94: imm16, zero, opcode -/

theorem test_decode_sat : decode 0b0000000000010000_00000000_00000001#32 = .ok (.sat 16) := by decide
theorem test_decode_clz : decode 0b0000000000000000_00000000_00000010#32 = .ok .clz := by decide
theorem test_decode_pack16 : decode 0b0000000000000000_00000000_00000011#32 = .ok .pack16 := by decide
theorem test_decode_unpk0 : decode 0b0000000000000000_00000000_00000100#32 = .ok .unpk0 := by decide
theorem test_decode_unpk1 : decode 0b0000000000000001_00000000_00000100#32 = .ok .unpk1 := by decide
theorem test_decode_qadd16x2 : decode 0b0000000000000000_00000000_00000101#32 = .ok .qadd16x2 := by decide
theorem test_decode_qsub16x2 : decode 0b0000000000000000_00000000_00000110#32 = .ok .qsub16x2 := by decide
theorem test_decode_vfill : decode 0b1111111111111110_00000000_00010000#32 = .ok (.vfill 0xFFFE#16) := by decide
theorem test_decode_vcopy : decode 0b0000000000000000_00000000_00010001#32 = .ok .vcopy := by decide
theorem test_decode_vadd : decode 0b0000000000000000_00000000_00010010#32 = .ok .vadd := by decide
theorem test_decode_vsub : decode 0b0000000000000000_00000000_00010011#32 = .ok .vsub := by decide
theorem test_decode_vmean : decode 0b0000000000000000_00000000_00010100#32 = .ok .vmean := by decide
theorem test_decode_vshift : decode 0b1111111111111101_00000000_00010101#32 = .ok (.vshift (-3)) := by decide
theorem test_decode_vabs : decode 0b0000000000000000_00000000_00010110#32 = .ok .vabs := by decide
theorem test_decode_mtrans : decode 0b0000000000000000_00000000_00100000#32 = .ok .mtrans := by decide

/-- Section 2.8: the illegal words. -/
theorem test_decode_illegal :
    ([0x00000000#32, 0x00010002#32, 0x00000102#32, 0x00020004#32, 0xFFFF0004#32, 0x00000007#32, 0x0000000F#32,
      0x00008015#32, 0x00000017#32, 0x0000001F#32, 0x00010020#32, 0x00000120#32, 0x00000021#32, 0x000000FF#32,
      0xFFFFFFFF#32].all fun c => match decode c with | .ok _ => false | .error _ => true) = true := by decide

theorem test_encode_vshift : encode (.vshift (-3)) = 0xFFFD0015#32 ∧ encode .unpk1 = 0x00010004#32 := by decide
theorem test_table_word : decodeTableWord 32 0x00640015 = some (.vshift 100) ∧ decodeTableWord 32 0 = none := by decide

/-! ### The primitive commands (sections 2.1 to 2.4) -/

theorem test_sat_clamps :
    resOf (exec (.sat 16) (opUnit .little 0x00012345#32 0#32)) = some 0x00007FFF#32 ∧
    resOf (exec (.sat 16) (opUnit .little 0xFFFF7FFF#32 0#32)) = some 0xFFFF8000#32 ∧
    resOf (exec (.sat 1) (opUnit .little 0xFFFFFFFB#32 0#32)) = some 0xFFFFFFFF#32 ∧
    resOf (exec (.sat 2) (opUnit .little 0x00000003#32 0#32)) = some 0x00000001#32 ∧
    resOf (exec (.sat 32) (opUnit .little 0x80000000#32 0#32)) = some 0x80000000#32 := by decide

theorem test_sat_fallback :
    resOf (exec (.sat 0) (opUnit .little 0x12345678#32 0#32)) = some 0x12345678#32 ∧
    resOf (exec (.sat 33) (opUnit .little 0x12345678#32 0#32)) = some 0x12345678#32 ∧
    resOf (exec (.sat 65535) (opUnit .little 0x12345678#32 0#32)) = some 0x12345678#32 := by decide

theorem test_clz :
    resOf (exec .clz (opUnit .little 0#32 0#32)) = some 32#32 ∧
    resOf (exec .clz (opUnit .little 1#32 0#32)) = some 31#32 ∧
    resOf (exec .clz (opUnit .little 0x0000FFFF#32 0#32)) = some 16#32 ∧
    resOf (exec .clz (opUnit .little 0x7FFFFFFF#32 0#32)) = some 1#32 ∧
    resOf (exec .clz (opUnit .little 0x80000000#32 0#32)) = some 0#32 := by decide

theorem test_pack16 :
    resOf (exec .pack16 (opUnit .little 0xFFFF1234#32 0x5555ABCD#32)) = some 0xABCD1234#32 ∧
    resOf (exec .pack16 (opUnit .big 0xFFFF1234#32 0x5555ABCD#32)) = some 0x1234ABCD#32 := by decide

theorem test_unpk0 :
    resOf (exec .unpk0 (opUnit .little 0xABCD1234#32 0#32)) = some 0x00001234#32 ∧
    resOf (exec .unpk0 (opUnit .big 0xABCD1234#32 0#32)) = some 0xFFFFABCD#32 := by decide

theorem test_unpk1 :
    resOf (exec .unpk1 (opUnit .little 0xABCD1234#32 0#32)) = some 0xFFFFABCD#32 ∧
    resOf (exec .unpk1 (opUnit .big 0xABCD1234#32 0#32)) = some 0x00001234#32 := by decide

theorem test_qadd16x2 :
    resOf (exec .qadd16x2 (opUnit .big 0x80007FFF#32 0xFFFF0001#32)) = some 0x80007FFF#32 ∧
    resOf (exec .qadd16x2 (opUnit .little 0x0001FFFF#32 0x00000001#32)) = some 0x00010000#32 := by decide

theorem test_qsub16x2 :
    resOf (exec .qsub16x2 (opUnit .little 0x80000000#32 0x00010001#32)) = some 0x8000FFFF#32 ∧
    resOf (exec .qsub16x2 (opUnit .big 0x7FFF7FFF#32 0x80008000#32)) = some 0x7FFF7FFF#32 ∧
    resOf (exec .qsub16x2 (opUnit .little 0x00010000#32 0x00000001#32)) = some 0x0001FFFF#32 := by decide

/-! ### The vector commands (section 2.6), on both paths and under both straps -/

theorem test_vfill : (onEveryStrap fun p e =>
    cellsOf 0x100 6 (exec (.vfill 0xFFFE#16) (vecUnit p e 0#32 0#32 0x100#32 5#32 (store 0x100 (List.replicate 6 0xAAAA#16) [])))
      == some [0xFFFE#16, 0xFFFE#16, 0xFFFE#16, 0xFFFE#16, 0xFFFE#16, 0xAAAA#16]) = true := by decide

theorem test_vcopy : (onEveryStrap fun p e =>
    cellsOf 0x20 6 (exec .vcopy (vecUnit p e 0x11#32 0#32 0x20#32 5#32
      (store 0x11 [1#16, 0x8000#16, 0x7FFF#16, 0#16, 0xFFFF#16, 7#16] (store 0x20 (List.replicate 6 0xAAAA#16) []))))
      == some [1#16, 0x8000#16, 0x7FFF#16, 0#16, 0xFFFF#16, 0xAAAA#16]) = true := by decide

/-- The nine-element input of VADD and VSUB in section 2.6. -/
def nine : Mem :=
  store 0x100 [0x7FFF#16, 0x8000#16, 0x0001#16, 0xFFFF#16, 0x4000#16, 0xC000#16, 0x1234#16, 0x7FFF#16, 0x8000#16]
    (store 0x200 [0x0001#16, 0xFFFF#16, 0xFFFF#16, 0x0001#16, 0x4000#16, 0xC000#16, 0x1111#16, 0x7FFF#16, 0x8000#16]
      (store 0x300 (List.replicate 10 0xAAAA#16) []))

theorem test_vadd : (onEveryStrap fun p e =>
    cellsOf 0x300 10 (exec .vadd (vecUnit p e 0x100#32 0x200#32 0x300#32 9#32 nine)) ==
      some [0x7FFF#16, 0x8000#16, 0x0000#16, 0x0000#16, 0x7FFF#16, 0x8000#16, 0x2345#16, 0x7FFF#16, 0x8000#16, 0xAAAA#16])
    = true := by decide

theorem test_vadd_in_place : (onEveryStrap fun p e =>
    cellsOf 0x40 6 (exec .vadd (vecUnit p e 0x40#32 0x40#32 0x40#32 5#32
      (store 0x40 [0x4000#16, 0xC000#16, 0x3FFF#16, 0xBFFF#16, 0x0001#16, 0xAAAA#16] [])))
      == some [0x7FFF#16, 0x8000#16, 0x7FFE#16, 0x8000#16, 0x0002#16, 0xAAAA#16]) = true := by decide

theorem test_vsub : (onEveryStrap fun p e =>
    cellsOf 0x300 10 (exec .vsub (vecUnit p e 0x100#32 0x200#32 0x300#32 9#32 nine)) ==
      some [0x7FFE#16, 0x8001#16, 0x0002#16, 0xFFFE#16, 0x0000#16, 0x0000#16, 0x0123#16, 0x0000#16, 0x0000#16, 0xAAAA#16])
    = true := by decide

theorem test_vmean : (onEveryStrap fun p e =>
    resOf (exec .vmean (vecUnit p e 0x10#32 0#32 0#32 3#32 (store 0x10 [0xFFFF#16, 0xFFFE#16, 0xFFFC#16] [])))
      == some 0xFFFFFFFE#32 &&
    resOf (exec .vmean (vecUnit p e 0x10#32 0#32 0#32 5#32 (store 0x10 (List.replicate 5 0x8000#16) [])))
      == some 0xFFFF8000#32) = true := by decide

theorem test_vmean_no_elements :
    exec .vmean { vecUnit true .little 0xFFFFFFFF#32 0#32 0#32 0#32 [] with res := 0x1234#32, code := 2#2 } =
      .next { vecUnit true .little 0xFFFFFFFF#32 0#32 0#32 0#32 [] with res := 0x1234#32 } := rfl

/-- The ten-element input of VSHIFT in section 2.6. -/
def ten : Mem :=
  store 0x10 [0x0001#16, 0xFFF8#16, 0x4000#16, 0x3FFF#16, 0xC000#16, 0xBFFF#16, 0x8000#16, 0x7FFF#16, 0x0000#16,
    0xFFFF#16] []

theorem test_vshift_left : (onEveryStrap fun p e =>
    cellsOf 0x10 10 (exec (.vshift 3) (vecUnit p e 0x10#32 0#32 0x10#32 10#32 ten)) ==
      some [0x0008#16, 0xFFC0#16, 0x7FFF#16, 0x7FFF#16, 0x8000#16, 0x8000#16, 0x8000#16, 0x7FFF#16, 0x0000#16, 0xFFF8#16] &&
    cellsOf 0x30 10 (exec (.vshift 100) (vecUnit p e 0x10#32 0#32 0x30#32 10#32 ten)) ==
      some [0x7FFF#16, 0x8000#16, 0x7FFF#16, 0x7FFF#16, 0x8000#16, 0x8000#16, 0x8000#16, 0x7FFF#16, 0x0000#16, 0x8000#16])
    = true := by decide

theorem test_vshift_right : (onEveryStrap fun p e =>
    cellsOf 0x30 10 (exec (.vshift (-3)) (vecUnit p e 0x10#32 0#32 0x30#32 10#32 ten)) ==
      some [0x0000#16, 0xFFFF#16, 0x0800#16, 0x07FF#16, 0xF800#16, 0xF7FF#16, 0xF000#16, 0x0FFF#16, 0x0000#16, 0xFFFF#16] &&
    cellsOf 0x10 10 (exec (.vshift (-16)) (vecUnit p e 0x10#32 0#32 0x10#32 10#32 ten)) ==
      some [0x0000#16, 0xFFFF#16, 0x0000#16, 0x0000#16, 0xFFFF#16, 0xFFFF#16, 0xFFFF#16, 0x0000#16, 0x0000#16, 0xFFFF#16])
    = true := by decide

theorem test_vabs : (onEveryStrap fun p e =>
    cellsOf 0x30 8 (exec .vabs (vecUnit p e 0x10#32 0#32 0x30#32 7#32
      (store 0x10 [0x8000#16, 0xFFFF#16, 0x0000#16, 0x7FFF#16, 0x8001#16, 0x0001#16, 0xFFFB#16] (store 0x37 [0xAAAA#16] []))))
      == some [0x7FFF#16, 0x0001#16, 0x0000#16, 0x7FFF#16, 0x7FFF#16, 0x0001#16, 0x0005#16, 0xAAAA#16]) = true := by
  decide

/-! ### The transpose (section 2.7) -/

/-- The Samples 1..15 from 0x600 and a filled destination. -/
def matrixMem : Mem :=
  store 0x600 ((List.range 15).map fun k => BitVec.ofNat 16 (k + 1)) (store 0x700 (List.replicate 16 0xAAAA#16) [])

/-- The 3 x 5 transpose, and its access counts on the packed path. -/
theorem test_mtrans_three_by_five : ((onEveryStrap fun p e =>
    cellsOf 0x700 16 (exec .mtrans (matUnit p e true 0x00050003#32 0x00030005#32 matrixMem)) ==
      some [1#16, 6#16, 11#16, 2#16, 7#16, 12#16, 3#16, 8#16, 13#16, 4#16, 9#16, 14#16, 5#16, 10#16, 15#16, 0xAAAA#16])
    && countAccesses (accessLog .mtrans (matUnit true .big true 0x00050003#32 0x00030005#32 matrixMem)) == ⟨3, 6, 15, 0⟩)
    = true := by decide

/-- The shape check fails with code 1, is skipped with the strap off, and comes before the range check (rule R246). -/
theorem test_mtrans_shape_check : (onEveryStrap fun p e =>
    codeOf (exec .mtrans (matUnit p e true 0x00030002#32 0x00030002#32 matrixMem)) == some 1#2 &&
    cellsOf 0x700 2 (exec .mtrans (matUnit p e true 0x00030002#32 0x00030002#32 matrixMem)) ==
      some [0xAAAA#16, 0xAAAA#16] &&
    cellsOf 0x700 7 (exec .mtrans (matUnit p e false 0x00030002#32 0x00030002#32 matrixMem)) ==
      some [1#16, 4#16, 2#16, 5#16, 3#16, 6#16, 0xAAAA#16] &&
    faultOf (exec .mtrans { matUnit p e true 0#32 0#32 [] with
      ops := ⟨0xFFFFFFFF#32, 0#32, 0#32, 0#32, 0x00030002#32, 0x00020003#32, 0#32, 0#32⟩ }) == some .invalidAddress &&
    codeOf (exec .mtrans { matUnit p e true 0#32 0#32 [] with
      ops := ⟨0xFFFFFFFF#32, 0#32, 0#32, 0#32, 0x00030002#32, 0x00030002#32, 0#32, 0#32⟩ }) == some 1#2) = true := by
  decide

/-! ### Steps, the host port and reset (sections 2.8, 2.9) -/

/-- A reset unit whose host makes the given move next. -/
def about (m : HostMove) : State := { State.reset with hostIn := [m] }

theorem test_step_clz : step (State.reset.withFetchWord 32 0x00000002) = .next { State.reset with res := 32#32 } := rfl
theorem test_step_illegal : step (State.reset.withFetchWord 32 0) = .next { State.reset with code := 2#2 } := rfl
theorem test_step_mtrans : step (State.reset.withFetchWord 32 0x20) = .next State.reset := rfl
theorem test_step_idle : step State.reset = .next State.reset := rfl

/-- `CONFIG` of section 2.9: 7 with all straps set and `BIG`, 1 with `PACKED_EN` alone. -/
theorem test_read_config :
    hostOutOf (step { unitWith true .big true OperandRegs.zero [] with hostIn := [.readReg 10] }) =
      some [.word 7#32] ∧
    hostOutOf (step { unitWith true .little false OperandRegs.zero [] with hostIn := [.readReg 10] }) =
      some [.word 1#32] := by decide

theorem test_write_len : step (about (.writeReg 3 0xFFFFFFFF#32)) =
    .next { State.reset with ops := { OperandRegs.zero with len := 0xFFFFFFFF#32 } } := rfl

theorem test_write_cmd_issues : codeOf (step (about (.writeReg 11 0x00010020#32))) = some 2#2 := by decide

theorem test_reserved_index :
    step (about (.writeReg 12 5#32)) = .next State.reset ∧
    hostOutOf (step (about (.readReg 12))) = some [.word 0#32] := ⟨rfl, by decide⟩

/-- Rule R65: bytes 2a and 2a+1 of Sample 0x1234 under both straps. -/
theorem test_byte_view :
    Mem.readByte .little (store 5 [0x1234#16] []) 10 = 0x34#8 ∧ Mem.readByte .little (store 5 [0x1234#16] []) 11 = 0x12#8 ∧
    Mem.readByte .big (store 5 [0x1234#16] []) 10 = 0x12#8 ∧ Mem.readByte .big (store 5 [0x1234#16] []) 11 = 0x34#8 := by
  decide

theorem test_reset_move : step { opUnit .little 1#32 2#32 with hostIn := [.reset], res := 7#32, code := 2#2 } =
    .next (opUnit .little 0#32 0#32) := rfl

/-! ### Witnesses: for each obligation with hypotheses, values that meet them together -/

/-- A unit whose vector registers name three disjoint ranges of 5 cells, the last one up to the last valid address, and
whose matrix registers name a 2 x 3 source and its transposed shape. -/
def demo : State :=
  unitWith true .little true ⟨0x100#32, 0x200#32, 4091#32, 5#32, 0x00030002#32, 0x00020003#32, 0xABCD1234#32, 0x8000#32⟩
    (store 0x100 [0x7FFF#16, 0x8000#16, 1#16, 0xFFFF#16, 0x4000#16] (store 0x200 [1#16, 0xFFFF#16, 2#16] []))

/-- `demo` with the transpose's destination up to the last valid address. -/
def demoMat : State := { demo with ops := { demo.ops with dst := 4090#32 } }

/-- `demo` working in place. -/
def demoInPlace : State := { demo with ops := { demo.ops with dst := 0x100#32 } }

/-- `demo` with the output one cell after the input: a forbidden overlap. -/
def demoOverlap : State := { demo with ops := { demo.ops with dst := 0x101#32 } }

/-- `demo` with the output one cell beyond the last valid address. -/
def demoBeyond : State := { demo with ops := { demo.ops with dst := 4092#32 } }

/-- `demo` with the destination wrongly declared. -/
def demoMismatch : State := { demo with ops := { demo.ops with ddim := 0x00030002#32 } }

theorem demo_inv : MachineInv demo := ⟨by decide, by decide, by decide⟩
theorem demoMat_inv : MachineInv demoMat := ⟨by decide, by decide, by decide⟩
theorem demoInPlace_inv : MachineInv demoInPlace := ⟨by decide, by decide, by decide⟩
theorem demoOverlap_inv : MachineInv demoOverlap := ⟨by decide, by decide, by decide⟩

theorem demo_ranges : RangeOk demo demo.srcA demo.count ∧ RangeOk demo demo.srcB demo.count ∧
    RangeOk demo demo.dstA demo.count ∧ Lockstep demo.dstA demo.srcA demo.count ∧
    Lockstep demo.dstA demo.srcB demo.count ∧ demo.dstA + demo.count = demo.platform.memSamples.val :=
  ⟨(rangeValid_iff ..).1 (by decide), (rangeValid_iff ..).1 (by decide), (rangeValid_iff ..).1 (by decide),
    (partlyOverlaps_eq_false_iff ..).1 (by decide), (partlyOverlaps_eq_false_iff ..).1 (by decide), by decide⟩

theorem demoInPlace_ranges : RangeOk demoInPlace demoInPlace.srcA demoInPlace.count ∧
    RangeOk demoInPlace demoInPlace.dstA demoInPlace.count ∧
    Lockstep demoInPlace.dstA demoInPlace.srcA demoInPlace.count ∧ demoInPlace.ops.dst = demoInPlace.ops.srca :=
  ⟨(rangeValid_iff ..).1 (by decide), (rangeValid_iff ..).1 (by decide), .inl (by decide), by decide⟩

theorem demoMat_shape : ShapeAccepted demoMat := (shapeMismatch_eq_false_iff _).1 (by decide)

theorem demoMat_ranges : RangeOk demoMat demoMat.srcA (demoMat.rows * demoMat.cols) ∧
    RangeOk demoMat demoMat.dstA (demoMat.rows * demoMat.cols) ∧
    RangesDisjoint demoMat.srcA demoMat.dstA (demoMat.rows * demoMat.cols) ∧ 0 < demoMat.rows * demoMat.cols :=
  ⟨(rangeValid_iff ..).1 (by decide), (rangeValid_iff ..).1 (by decide), (rangesMeet_eq_false_iff ..).1 (by decide),
    by decide⟩

/-- Every command's preconditions are met by one state. -/
theorem demoMat_preconditions (i : Instr) : Preconditions i demoMat := by
  have a : RangeOk demoMat demoMat.srcA demoMat.count := (rangeValid_iff ..).1 (by decide)
  have b : RangeOk demoMat demoMat.srcB demoMat.count := (rangeValid_iff ..).1 (by decide)
  have d : RangeOk demoMat demoMat.dstA demoMat.count := (rangeValid_iff ..).1 (by decide)
  have la : Lockstep demoMat.dstA demoMat.srcA demoMat.count := (partlyOverlaps_eq_false_iff ..).1 (by decide)
  have lb : Lockstep demoMat.dstA demoMat.srcB demoMat.count := (partlyOverlaps_eq_false_iff ..).1 (by decide)
  cases i with
  | vfill => exact ⟨d, trivial⟩
  | vcopy => exact ⟨⟨a, d⟩, la⟩
  | vadd => exact ⟨⟨a, b, d⟩, la, lb⟩
  | vsub => exact ⟨⟨a, b, d⟩, la, lb⟩
  | vmean => exact ⟨a, trivial⟩
  | vshift => exact ⟨⟨a, d⟩, la⟩
  | vabs => exact ⟨⟨a, d⟩, la⟩
  | mtrans => exact ⟨fun _ => ⟨demoMat_ranges.1, demoMat_ranges.2.1⟩, fun _ => demoMat_ranges.2.2.1⟩
  | sat => exact ⟨trivial, trivial⟩
  | clz => exact ⟨trivial, trivial⟩
  | pack16 => exact ⟨trivial, trivial⟩
  | unpk0 => exact ⟨trivial, trivial⟩
  | unpk1 => exact ⟨trivial, trivial⟩
  | qadd16x2 => exact ⟨trivial, trivial⟩
  | qsub16x2 => exact ⟨trivial, trivial⟩

theorem witness_DecodeAndEncodeAgree :
    (Instr.sat 65535).wellFormed = true ∧ (Instr.vshift (-32768)).wellFormed = true ∧
      decode 0xFFFF0001#32 = .ok (.sat 65535) ∧ 65535 ≤ 65535 ∧ ((-32768 : Int) ≤ -32768 ∧ (-32768 : Int) ≤ 32767) ∧
      ((-32768 : Int) ≤ 32767 ∧ (32767 : Int) ≤ 32767) := by decide

theorem witness_DecodeFollowsOpcodeMap :
    decode 0xFFFF0015#32 = .ok (.vshift (-1)) ∧
      ∃ r ∈ opcodeMap, r.selects 0xFFFF0015#32 = true ∧ ∃ r' ∈ opcodeMap, r'.selects 0xFFFF0015#32 = true :=
  ⟨by decide, ⟨"VSHIFT", 0x00000015#32, 0x0000FFFF#32⟩, by decide, by decide,
    ⟨"VSHIFT", 0x00000015#32, 0x0000FFFF#32⟩, by decide, by decide⟩

theorem witness_StepRunsDecodedCommand :
    (about (.issue 0x20#32)).hostIn = [.issue 0x20#32] ∧ (about (.writeReg 11 0x20#32)).hostIn = [.writeReg 11 0x20#32] ∧
      decode 0x20#32 = .ok .mtrans := by decide

theorem witness_IllegalWordRaisesIllegalCommand :
    (about (.issue 0#32)).hostIn = [.issue 0#32] ∧ ∀ r ∈ opcodeMap, r.selects 0#32 = false := by decide

theorem witness_HostPortReadsAndWrites : ∀ i : Fin 16,
    (about (.readReg i)).hostIn = [.readReg i] ∧ (about (.writeReg i 1#32)).hostIn = [.writeReg i 1#32] := by decide

theorem witness_HostSetsAndReadsCells :
    (MachineInv { demo with hostIn := [.pokeCell 4095#32 7#16] } ∧ (4095#32).toNat < demo.platform.memSamples.val) ∧
    (MachineInv { demo with hostIn := [.peekCell 4095#32] } ∧ (4095#32).toNat < demo.platform.memSamples.val) ∧
    (MachineInv { demo with hostIn := [.pokeCell 4096#32 7#16] } ∧ MachineInv { demo with hostIn := [.peekCell 4096#32] } ∧
      demo.platform.memSamples.val ≤ (4096#32).toNat) :=
  ⟨⟨⟨demo_inv.1, demo_inv.2, demo_inv.3⟩, by decide⟩, ⟨⟨demo_inv.1, demo_inv.2, demo_inv.3⟩, by decide⟩,
    ⟨demo_inv.1, demo_inv.2, demo_inv.3⟩, ⟨demo_inv.1, demo_inv.2, demo_inv.3⟩, by decide⟩

theorem witness_HostSetsAndReadsBytes :
    MachineInv { demo with hostIn := [.pokeByte 8191 7#8] } ∧ MachineInv { demo with hostIn := [.peekByte 8191] } ∧
    8191 / 2 < demo.platform.memSamples.val ∧ MachineInv { demo with hostIn := [.pokeByte 8192 7#8] } ∧
    MachineInv { demo with hostIn := [.peekByte 8192] } ∧ demo.platform.memSamples.val ≤ 8192 / 2 :=
  ⟨⟨demo_inv.1, demo_inv.2, demo_inv.3⟩, ⟨demo_inv.1, demo_inv.2, demo_inv.3⟩, by decide,
    ⟨demo_inv.1, demo_inv.2, demo_inv.3⟩, ⟨demo_inv.1, demo_inv.2, demo_inv.3⟩, by decide⟩

theorem witness_ResetMoveZeroesRegisters : { demo with hostIn := [.reset] }.hostIn = [.reset] := rfl

theorem witness_ResetDuringCommandLeavesOldOrNewCells :
    MachineInv { demo with hostIn := [.resetDuring 0x12#32] } ∧ decode 0x12#32 = .ok .vadd ∧
      (∃ t, exec .vadd { demo with hostIn := [] } = .next t) ∧ outputRange .vadd demo = (4091, 5) :=
  ⟨⟨demo_inv.1, demo_inv.2, demo_inv.3⟩, by decide, ⟨_, rfl⟩, rfl⟩

theorem witness_InvariantHoldsAfterReset : Mem.wf (store 4095 [9#16] []) ∧
    ∀ q ∈ store 4095 [9#16] [], q.1 < demo.platform.memSamples.val := by decide

theorem witness_EveryStepKeepsInvariant :
    MachineInv { demo with hostIn := [.issue 0x12#32] } ∧ ∃ t, step { demo with hostIn := [.issue 0x12#32] } = .next t :=
  ⟨⟨demo_inv.1, demo_inv.2, demo_inv.3⟩, _, rfl⟩

theorem witness_StrapsAreNeverWritten : ∃ t, step { demo with hostIn := [.writeReg 10 0#32] } = .next t := ⟨_, rfl⟩

theorem witness_NoCommandWritesOperandRegisters :
    (∃ t, demoMat.issue 0x20#32 = .next t) ∧ (∃ t, demo.issue 0#32 = .next t) ∧ ∃ t, demoMismatch.issue 0x20#32 = .next t :=
  ⟨⟨_, rfl⟩, ⟨_, rfl⟩, ⟨_, rfl⟩⟩

theorem witness_OnlyHostWritesAndResetsChangeOperands :
    ∃ t, step { demo with hostIn := [.writeReg 7 1#32] } = .next t ∧ t.ops ≠ demo.ops := ⟨_, rfl, by decide⟩

theorem witness_ResultRegisterIsWrittenByReturningCommandsOnly :
    (∃ t, exec .vmean demo = .next t) ∧ (decode 0#32 = .error .opcode ∧ ∃ t, demo.issue 0#32 = .next t) ∧
      (about (.writeReg 8 1#32)).hostIn = [.writeReg 8 1#32] := ⟨⟨_, rfl⟩, ⟨by decide, _, rfl⟩, rfl⟩

theorem witness_StatusCodeOfEveryCommand :
    (∃ t, demo.issue 0#32 = .next t ∧ decode 0#32 = .error .opcode) ∧
    (∃ t, demoMismatch.issue 0x20#32 = .next t ∧ decode 0x20#32 = .ok .mtrans ∧ ¬ ShapeAccepted demoMismatch) ∧
    ∃ t, demoMat.issue 0x20#32 = .next t ∧ decode 0x20#32 = .ok .mtrans ∧ ShapeAccepted demoMat :=
  ⟨⟨_, rfl, by decide⟩, ⟨_, rfl, by decide, fun h => absurd ((shapeMismatch_eq_false_iff _).2 h) (by decide)⟩,
    ⟨_, rfl, by decide, demoMat_shape⟩⟩

theorem witness_MemoryChangesOnlyInOutputRange :
    (∃ t, exec .vcopy demo = .next t) ∧ 4090 < (outputRange .vcopy demo).1 ∧
      (outputRange .vcopy demo).1 + (outputRange .vcopy demo).2 ≤ 4096 := ⟨⟨_, rfl⟩, by decide, by decide⟩

theorem witness_CommandsReadOnlyTheRegistersTheirRuleNames :
    NamedRegistersAgree .vcopy demoMat.platform.straps demoMat.ops { demoMat.ops with srcb := 9#32, opa := 0#32 } ∧
      Preconditions .vcopy demoMat ∧ ∃ t, exec .vcopy demoMat = .next t :=
  ⟨⟨rfl, rfl, rfl⟩, demoMat_preconditions _, _, rfl⟩

theorem witness_CommandsCompleteExactlyOnValidAddresses :
    AddressesOk .vcopy demo ∧ ¬ AddressesOk .vcopy demoBeyond :=
  ⟨⟨demo_ranges.1, demo_ranges.2.2.1⟩, fun h => absurd ((unaryValid_iff _).2 h) (by decide)⟩

theorem witness_ForbiddenOverlapLeavesOnlyOutputUnknown :
    AddressesOk .vcopy demoOverlap ∧ ¬ OverlapOk .vcopy demoOverlap :=
  ⟨(unaryValid_iff _).1 (by decide), fun h => absurd ((unaryOverlap_eq_false_iff _).2 h) (by decide)⟩

theorem witness_SatClampsToBits : (1 ≤ 1 ∧ 1 ≤ 32) ∧ (1 ≤ 32 ∧ 32 ≤ 32) ∧ (0 = 0 ∨ 33 ≤ 0) ∧ (33 = 0 ∨ 33 ≤ 33) := by
  decide

theorem witness_SaturationAtSixteenBits :
    (32768#32).toInt > 32767 ∧ (0xFFFF7FFF#32).toInt < -32768 ∧
    (-32768 ≤ (0xFFFF8000#32).toInt ∧ (0xFFFF8000#32).toInt ≤ 32767) ∧
    (-(2 : Int) ^ 31 ≤ -2147483648 ∧ -2147483648 < (2 : Int) ^ 31) := by decide

theorem witness_ClzCountsLeadingZeros :
    (opUnit .little 0#32 0#32).ops.opa = 0#32 ∧ (opUnit .little 1#32 0#32).ops.opa ≠ 0#32 := by decide

theorem witness_Pack16PlacesHalvesByEndian :
    (opUnit .little 1#32 2#32).platform.straps.endian = .little ∧
      (opUnit .big 1#32 2#32).platform.straps.endian = .big := by decide

theorem witness_UnpkTakesElementsByEndian :
    (opUnit .little 0xABCD1234#32 0#32).platform.straps.endian = .little ∧
      (opUnit .big 0xABCD1234#32 0#32).platform.straps.endian = .big := by decide

theorem witness_Qadd16x2AddsLanesWithSaturation : (0 = 0 ∨ 0 = 16) ∧ (16 = 0 ∨ 16 = 16) := by decide

theorem witness_Qsub16x2SubtractsLanesWithSaturation : (0 = 0 ∨ 0 = 16) ∧ (16 = 0 ∨ 16 = 16) := by decide

theorem witness_ShiftPipelineIsExactShift : (0 : Int) ≤ 0 ∧ (-1 : Int) < 0 := by decide

theorem witness_VfillFillsOutputRange :
    MachineInv demo ∧ RangeOk demo demo.dstA demo.count ∧ 4 < demo.count ∧ 4090 < demo.dstA ∧
      demo.dstA + demo.count ≤ 4096 := ⟨demo_inv, demo_ranges.2.2.1, by decide, by decide, by decide⟩

theorem witness_VcopyCopiesElements :
    (MachineInv demo ∧ RangeOk demo demo.srcA demo.count ∧ RangeOk demo demo.dstA demo.count ∧
      Lockstep demo.dstA demo.srcA demo.count) ∧
    MachineInv demoInPlace ∧ RangeOk demoInPlace demoInPlace.srcA demoInPlace.count ∧
      RangeOk demoInPlace demoInPlace.dstA demoInPlace.count ∧
      Lockstep demoInPlace.dstA demoInPlace.srcA demoInPlace.count ∧ demoInPlace.ops.dst = demoInPlace.ops.srca :=
  ⟨⟨demo_inv, demo_ranges.1, demo_ranges.2.2.1, demo_ranges.2.2.2.1⟩, demoInPlace_inv, demoInPlace_ranges⟩

theorem witness_VaddAddsElementsWithSaturation :
    MachineInv demo ∧ RangeOk demo demo.srcA demo.count ∧ RangeOk demo demo.srcB demo.count ∧
      RangeOk demo demo.dstA demo.count ∧ Lockstep demo.dstA demo.srcA demo.count ∧
      Lockstep demo.dstA demo.srcB demo.count ∧ 4 < demo.count :=
  ⟨demo_inv, demo_ranges.1, demo_ranges.2.1, demo_ranges.2.2.1, demo_ranges.2.2.2.1, demo_ranges.2.2.2.2.1, by decide⟩

theorem witness_VsubSubtractsElementsWithSaturation :
    MachineInv demo ∧ RangeOk demo demo.srcA demo.count ∧ RangeOk demo demo.srcB demo.count ∧
      RangeOk demo demo.dstA demo.count ∧ Lockstep demo.dstA demo.srcA demo.count ∧
      Lockstep demo.dstA demo.srcB demo.count ∧ 0 < demo.count :=
  ⟨demo_inv, demo_ranges.1, demo_ranges.2.1, demo_ranges.2.2.1, demo_ranges.2.2.2.1, demo_ranges.2.2.2.2.1, by decide⟩

theorem witness_VmeanReturnsTruncatedMean :
    (RangeOk demo demo.srcA demo.count ∧ demo.count ≠ 0) ∧
      RangeOk State.reset State.reset.srcA State.reset.count ∧ State.reset.count = 0 :=
  ⟨⟨demo_ranges.1, by decide⟩, .inl (by decide), by decide⟩

theorem witness_VshiftShiftsElements :
    MachineInv demo ∧ RangeOk demo demo.srcA demo.count ∧ RangeOk demo demo.dstA demo.count ∧
      Lockstep demo.dstA demo.srcA demo.count ∧ 4 < demo.count ∧ (0 : Int) ≤ 0 ∧ (-1 : Int) < 0 :=
  ⟨demo_inv, demo_ranges.1, demo_ranges.2.2.1, demo_ranges.2.2.2.1, by decide, by decide, by decide⟩

theorem witness_VabsTakesMagnitudes :
    MachineInv demo ∧ RangeOk demo demo.srcA demo.count ∧ RangeOk demo demo.dstA demo.count ∧
      Lockstep demo.dstA demo.srcA demo.count ∧ 4 < demo.count :=
  ⟨demo_inv, demo_ranges.1, demo_ranges.2.2.1, demo_ranges.2.2.2.1, by decide⟩

theorem witness_ZeroLengthIsNoOp :
    isVector .vadd = true ∧ (vecUnit true .little 0xFFFFFFFF#32 0xFFFFFFFF#32 0xFFFFFFFF#32 0#32 []).ops.len = 0#32 := by
  decide

theorem witness_CopyOfCopyReproducesOriginal :
    MachineInv demo ∧ Preconditions .vcopy demo ∧ Lockstep (0x300#32).toNat demo.dstA demo.count ∧
      ∃ t u, exec .vcopy demo = .next t ∧
        exec .vcopy { t with ops := { t.ops with srca := demo.ops.dst, dst := 0x300#32 } } = .next u :=
  ⟨demo_inv, ⟨⟨demo_ranges.1, demo_ranges.2.2.1⟩, demo_ranges.2.2.2.1⟩, (partlyOverlaps_eq_false_iff ..).1 (by decide),
    _, _, rfl, rfl⟩

theorem witness_VaddIsCommutative :
    MachineInv demoMat ∧ Preconditions .vadd demoMat ∧ ∃ t u, exec .vadd demoMat = .next t ∧
      exec .vadd { demoMat with ops := { demoMat.ops with srca := demoMat.ops.srcb, srcb := demoMat.ops.srca } } =
        .next u := ⟨demoMat_inv, demoMat_preconditions _, _, _, rfl, rfl⟩

theorem witness_VabsIsIdempotent :
    MachineInv demoInPlace ∧ RangeOk demoInPlace demoInPlace.dstA demoInPlace.count ∧
      demoInPlace.ops.dst = demoInPlace.ops.srca ∧ ∃ t, exec .vabs demoInPlace = .next t :=
  ⟨demoInPlace_inv, demoInPlace_ranges.2.1, by decide, _, rfl⟩

theorem witness_MtransWritesTranspose :
    MachineInv demoMat ∧ ShapeAccepted demoMat ∧ RangeOk demoMat demoMat.srcA (demoMat.rows * demoMat.cols) ∧
      RangeOk demoMat demoMat.dstA (demoMat.rows * demoMat.cols) ∧
      RangesDisjoint demoMat.srcA demoMat.dstA (demoMat.rows * demoMat.cols) ∧ 1 < demoMat.rows ∧ 2 < demoMat.cols ∧
      ¬ ShapeAccepted demoMismatch :=
  ⟨demoMat_inv, demoMat_shape, demoMat_ranges.1, demoMat_ranges.2.1, demoMat_ranges.2.2.1, by decide, by decide,
    fun h => absurd ((shapeMismatch_eq_false_iff _).2 h) (by decide)⟩

/-- Each field alone differs, and the check disabled. -/
theorem witness_ShapeCheckRaisesSizeMismatch :
    (demo.platform.straps.shapeCheckEn = true ∧
      (0x00020002#32).toNat % 65536 ≠ demo.ops.sdim.toNat / 65536 ∧
      (0x00030003#32).toNat / 65536 ≠ demo.ops.sdim.toNat % 65536) ∧
    (matUnit true .little false 0x00030002#32 0#32 []).platform.straps.shapeCheckEn = false ∧
    OverlapOk .mtrans (matUnit true .little false 0x00030002#32 0#32 []) ∧
    (∃ t, exec .mtrans (matUnit true .little false 0x00030002#32 0#32 []) = .next t) ∧
    ∃ t, exec .mtrans demoMismatch = .next t ∧ t.code = 1#2 :=
  ⟨by decide, by decide, fun _ => (rangesMeet_eq_false_iff ..).1 (by decide), ⟨_, rfl⟩, _, rfl, rfl⟩

/-- The three rows of section 2.7 with a zero dimension: accepted with R = 0, refused with R = 0, accepted with C = 0. -/
theorem witness_ZeroDimensionTransposesNothing :
    ((matUnit true .little true 0x00050000#32 0x00000005#32 []).rows = 0 ∧
      ShapeAccepted (matUnit true .little true 0x00050000#32 0x00000005#32 [])) ∧
    ((matUnit true .little true 0x00050000#32 0x00050000#32 []).rows = 0 ∧
      ¬ ShapeAccepted (matUnit true .little true 0x00050000#32 0x00050000#32 [])) ∧
    (matUnit true .little true 0x00000005#32 0x00050000#32 []).cols = 0 ∧
      ShapeAccepted (matUnit true .little true 0x00000005#32 0x00050000#32 []) :=
  ⟨⟨by decide, (shapeMismatch_eq_false_iff _).1 (by decide)⟩,
    ⟨by decide, fun h => absurd ((shapeMismatch_eq_false_iff _).2 h) (by decide)⟩, by decide,
    (shapeMismatch_eq_false_iff _).1 (by decide)⟩

theorem witness_TransposeOfTransposeIsOriginal :
    MachineInv demoMat ∧ ShapeAccepted demoMat ∧ Preconditions .mtrans demoMat ∧
      RangesDisjoint demoMat.dstA (0x300#32).toNat (demoMat.rows * demoMat.cols) ∧
      ∃ t u, exec .mtrans demoMat = .next t ∧
        exec .mtrans { t with ops := { t.ops with
          srca := demoMat.ops.dst, dst := 0x300#32, sdim := demoMat.ops.sdim.rotateLeft 16, ddim := demoMat.ops.sdim } } =
          .next u :=
  ⟨demoMat_inv, demoMat_shape, demoMat_preconditions _, (rangesMeet_eq_false_iff ..).1 (by decide), _, _, rfl, rfl⟩

theorem witness_PackedAndScalarPathsLeaveTheEndState (i : Instr) : MachineInv demoMat ∧ Preconditions i demoMat :=
  ⟨demoMat_inv, demoMat_preconditions i⟩

theorem witness_EndianCannotBeSeenInMemory (i : Instr) :
    Mem.wf demoMat.mem ∧ MachineInv demoMat ∧ Preconditions i demoMat :=
  ⟨demoMat_inv.1, demoMat_inv, demoMat_preconditions i⟩

theorem witness_SingleAndPairAccesses : Mem.wf demo.mem := by decide

theorem witness_ByteViewMatchesNativeWord : Mem.wf demo.mem := by decide

theorem witness_AccessCountsOfEveryCommand :
    (∀ i, Preconditions i demoMat) ∧ 5 = demoMat.count ∧ 1 = 5 / 4 ∧ 1 = 5 % 4 ∧
      demoMat.platform.straps.packedEn = true ∧ ShapeAccepted demoMat ∧
      (∀ i, Preconditions i (withPacked false demoMat)) ∧
      (withPacked false demoMat).platform.straps.packedEn = false ∧ ShapeAccepted (withPacked false demoMat) :=
  ⟨demoMat_preconditions, by decide, by decide, by decide, by decide, demoMat_shape,
    fun i => by have h := demoMat_preconditions i; cases i <;> exact h, by decide, demoMat_shape⟩

theorem witness_AccessesReadBeforeWriteEachOnce :
    Preconditions .vcopy demoMat ∧ ∃ before later a, accessLog .vcopy demoMat = before ++ .writePair a :: later :=
  ⟨demoMat_preconditions _, [.readPair 256], [.readPair 258, .writePair 4092, .readSingle 260, .writeSingle 4094], 4090,
    by decide⟩

theorem witness_PairAccessesOnlyInMainLoop :
    .readPair 258 ∈ accessLog .vcopy demoMat ∧ .writePair 4092 ∈ accessLog .vcopy demoMat ∧
    demoMat.platform.straps.packedEn = true ∧ .readSingle 260 ∈ accessLog .vcopy demoMat ∧
    .writeSingle 4094 ∈ accessLog .vcopy demoMat ∧
    .readPair 0x600 ∈ accessLog .mtrans (matUnit true .little true 0x00050003#32 0x00030005#32 matrixMem) ∧
    .readSingle 0x60E ∈ accessLog .mtrans (matUnit true .little true 0x00050003#32 0x00030005#32 matrixMem) := by
  decide

end Sys2Proof.Tests
end

section
/-! PROOFS. The host's moves between commands (00_scope.md): delivery of a command word, and the host's own accesses to
cells of memory. -/

namespace Sys2Proof.Machine

/-! ### What an access to a cell does on each side of `MEM_SAMPLES` -/

theorem atCell_of_lt {s : State} {a : Nat} (t : State) (h : a < s.platform.memSamples.val) :
    s.atCell a t = .next t := if_pos h

theorem atCell_of_le {s : State} {a : Nat} (t : State) (h : s.platform.memSamples.val ≤ a) :
    s.atCell a t = .fault .hostInvalidAddress := if_neg (Nat.not_lt.2 h)

/-! ### The step for each of the host's moves on a command word or a cell -/

section Moves

variable {s : State} {rest : List HostMove}

theorem step_issue {c : Word} (h : s.hostIn = .issue c :: rest) :
    step s = State.issue { s with hostIn := rest } c := step_cons h

/-- Index 11 is `CMD`, and a write of it is `Issue` (rule R34). -/
theorem step_writeCmd {c : Word} (h : s.hostIn = .writeReg 11 c :: rest) :
    step s = State.issue { s with hostIn := rest } c := step_cons h

theorem step_pokeCell {a : Word} {v : Sample} (h : s.hostIn = .pokeCell a v :: rest) :
    step s = State.atCell { s with hostIn := rest } a.toNat
      { s with hostIn := rest, mem := s.mem.write a.toNat v } := step_cons h

theorem step_peekCell {a : Word} (h : s.hostIn = .peekCell a :: rest) :
    step s = State.atCell { s with hostIn := rest } a.toNat
      (State.deliver { s with hostIn := rest } (.cell (s.mem.read a.toNat))) := step_cons h

end Moves

end Sys2Proof.Machine

namespace Sys2Proof.Proofs

open Sys2Proof.Machine Sys2Proof.Safety

/-- Settles O5: both moves are `Issue` of the word, and a legal word is executed. -/
theorem stepRunsDecodedCommand : Obligations.StepRunsDecodedCommand := by
  intro s rest c i hmove hc
  have hissue : step s = State.issue { s with hostIn := rest } c := hmove.elim step_issue step_writeCmd
  exact hissue.trans (issue_ok hc)

/-- Settles O8: the step of either move is `State.atCell`, which runs the access below `MEM_SAMPLES` and stops the model
from there on; a canonical memory reads back what was written. -/
theorem hostSetsAndReadsCells : Obligations.HostSetsAndReadsCells := by
  intro s rest a v hinv
  refine ⟨fun ha hpoke => ?_, fun ha hpeek => ?_, fun ha hmove => ?_⟩
  · refine ⟨_, (step_pokeCell hpoke).trans (atCell_of_lt _ ha), rfl, fun b => ?_⟩
    exact Mem.read_write a.toNat b v hinv.memCanonical
  · exact (step_peekCell hpeek).trans (atCell_of_lt _ ha)
  · rcases hmove with hpoke | hpeek
    · exact (step_pokeCell hpoke).trans (atCell_of_le _ ha)
    · exact (step_peekCell hpeek).trans (atCell_of_le _ ha)

end Sys2Proof.Proofs
end

section
/-! PROOFS. The registers of 10_state.md: what the sixteen indices of the host port reach, the values after reset, and who
writes the operand registers and the straps. -/

namespace Sys2Proof.Machine

/-! ### The sixteen indices of the host port (rules R21, R31 to R35, R41) -/

section Indices

variable (s : State) {i : Fin 16}

theorem hostReg_of_ge_eleven (h : 11 ≤ i.val) : hostReg i = .cmd ∨ hostReg i = .reserved := by
  obtain ⟨k, hk⟩ := i
  interval_cases k
  · exact .inl rfl
  all_goals exact .inr rfl

theorem readHostReg_operand (h : i.val < 8) : s.ops.toList[i.val]? = some (s.readHostReg (hostReg i)) := by
  obtain ⟨k, hk⟩ := i
  interval_cases k <;> rfl

theorem readHostReg_of_ge_eleven (h : 11 ≤ i.val) : s.readHostReg (hostReg i) = 0#32 := by
  rcases hostReg_of_ge_eleven h with e | e <;> rw [e] <;> rfl

theorem writeHostReg_operand (v : Word) (h : i.val < 8) :
    ∃ x, s.writeHostReg (hostReg i) v = .next { s with ops := x } ∧ x.toList = s.ops.toList.set i.val v := by
  obtain ⟨k, hk⟩ := i
  interval_cases k <;> exact ⟨_, rfl, rfl⟩

theorem writeHostReg_cmd (v : Word) (h : i.val = 11) : s.writeHostReg (hostReg i) v = s.issue v := by
  obtain rfl : i = 11 := Fin.ext h
  rfl

theorem writeHostReg_ignored (v : Word) (h : 8 ≤ i.val) (h' : i.val ≠ 11) :
    s.writeHostReg (hostReg i) v = .next s := by
  obtain ⟨k, hk⟩ := i
  have hk' : k = 8 ∨ k = 9 ∨ k = 10 ∨ 12 ≤ k := by simp only at h h'; omega
  rcases hk' with rfl | rfl | rfl | hreserved
  · rfl
  · rfl
  · rfl
  · interval_cases k <;> rfl

end Indices

theorem toNat_statusWord (c : BitVec 2) : (statusWord c).toNat = c.toNat :=
  BitVec.toNat_setWidth_of_le (by decide)

/-- The bits of `CONFIG` (rule R33). -/
theorem toNat_configWord (st : Straps) : (configWord st).toNat =
    st.packedEn.toNat + 2 * (decide (st.endian = .big)).toNat + 4 * st.shapeCheckEn.toNat := by
  obtain ⟨p, e, c⟩ := st
  cases e <;> revert p c <;> decide

section Moves

variable {s : State} {rest : List HostMove} {i : Fin 16}

theorem step_readReg (h : s.hostIn = .readReg i :: rest) :
    step s = .next { s with hostIn := rest, hostOut := .word (s.readHostReg (hostReg i)) :: s.hostOut } := step_cons h

theorem step_writeReg {v : Word} (h : s.hostIn = .writeReg i v :: rest) :
    step s = State.writeHostReg { s with hostIn := rest } (hostReg i) v := step_cons h

end Moves

/-! ### What a move leaves unchanged (rules R20, R30, R42) -/

/-- A host move that may change an operand register: a write of one, or a reset. -/
def HostMove.reachesOperands : HostMove → Prop
  | .writeReg i _ => i.val < 8
  | .reset => True
  | .resetDuring _ => True
  | .readReg _ => False
  | .issue _ => False
  | .pokeCell _ _ => False
  | .peekCell _ => False
  | .pokeByte _ _ => False
  | .peekByte _ => False

theorem issue_frame {s t : State} {c : Word} (h : s.issue c = .next t) : t.ops = s.ops ∧ t.platform = s.platform := by
  cases hc : decode c with
  | ok i =>
    rw [issue_ok hc] at h
    obtain ⟨hops, hplatform, -, -⟩ := exec_frame h
    exact ⟨hops, hplatform⟩
  | error r =>
    rw [issue_error hc] at h
    cases h
    exact ⟨rfl, rfl⟩

theorem writeHostReg_frame {s t : State} {i : Fin 16} {v : Word} (h : s.writeHostReg (hostReg i) v = .next t) :
    t.platform = s.platform ∧ (t.ops = s.ops ∨ i.val < 8) := by
  by_cases hlt : i.val < 8
  · obtain ⟨x, hx, -⟩ := writeHostReg_operand s v hlt
    rw [hx] at h
    cases h
    exact ⟨rfl, .inr hlt⟩
  by_cases hcmd : i.val = 11
  · rw [writeHostReg_cmd s v hcmd] at h
    obtain ⟨hops, hplatform⟩ := issue_frame h
    exact ⟨hplatform, .inl hops⟩
  · rw [writeHostReg_ignored s v (Nat.not_lt.1 hlt) hcmd] at h
    cases h
    exact ⟨rfl, .inl rfl⟩

theorem resetDuring_platform {s t : State} {c : Word} (h : s.resetDuring c = .next t) : t.platform = s.platform := by
  rcases resetDuring_next h with ⟨-, rfl⟩ | ⟨i, u, -, -, rfl⟩ <;> rfl

/-- No move changes the platform, and only a write of an operand register or a reset changes one. -/
theorem move_frame {s t : State} {m : HostMove} (h : s.move m = .next t) :
    t.platform = s.platform ∧ (t.ops = s.ops ∨ m.reachesOperands) := by
  cases m with
  | writeReg i v => exact writeHostReg_frame h
  | readReg i => cases h; exact ⟨rfl, .inl rfl⟩
  | issue c => obtain ⟨hops, hplatform⟩ := issue_frame h; exact ⟨hplatform, .inl hops⟩
  | pokeCell a v => obtain ⟨-, rfl⟩ := atCell_next h; exact ⟨rfl, .inl rfl⟩
  | peekCell a => obtain ⟨-, rfl⟩ := atCell_next h; exact ⟨rfl, .inl rfl⟩
  | pokeByte b v => obtain ⟨-, rfl⟩ := atCell_next h; exact ⟨rfl, .inl rfl⟩
  | peekByte b => obtain ⟨-, rfl⟩ := atCell_next h; exact ⟨rfl, .inl rfl⟩
  | reset => cases h; exact ⟨rfl, .inr trivial⟩
  | resetDuring c => exact ⟨resetDuring_platform h, .inr trivial⟩

/-- No step changes the platform, and one that changes an operand register took a move that reaches them. -/
theorem step_frame {s t : State} (h : step s = .next t) :
    t.platform = s.platform ∧ (t.ops = s.ops ∨ ∃ m rest, s.hostIn = m :: rest ∧ m.reachesOperands) := by
  cases hin : s.hostIn with
  | nil =>
    rw [step_nil hin] at h
    cases h
    exact ⟨rfl, .inl rfl⟩
  | cons m rest =>
    rw [step_cons hin] at h
    obtain ⟨hplatform, hops⟩ := move_frame h
    exact ⟨hplatform, hops.imp_right fun hm => ⟨m, rest, rfl, hm⟩⟩

end Sys2Proof.Machine

namespace Sys2Proof.Proofs

open Sys2Proof.Machine Sys2Proof.Safety

/-- Settles O7: a read delivers, and a write goes to, the register at the index. -/
theorem hostPortReadsAndWrites : Obligations.HostPortReadsAndWrites := by
  refine ⟨fun s rest i hread => ⟨_, step_readReg hread, readHostReg_operand s, ?_, ?_, ?_, readHostReg_of_ge_eleven s⟩,
    fun s rest i v hwrite => ?_⟩
  · intro h
    obtain rfl : i = 8 := Fin.ext h
    rfl
  · intro h
    obtain rfl : i = 9 := Fin.ext h
    exact toNat_statusWord s.code
  · intro h
    obtain rfl : i = 10 := Fin.ext h
    exact toNat_configWord s.platform.straps
  · rw [step_writeReg hwrite]
    refine ⟨fun h => ?_, writeHostReg_cmd _ v, writeHostReg_ignored _ v⟩
    obtain ⟨x, hx, hlist⟩ := writeHostReg_operand { s with hostIn := rest } v h
    exact ⟨_, hx, rfl, hlist⟩

/-- Settles O15: no move changes the platform. -/
theorem strapsAreNeverWritten : Obligations.StrapsAreNeverWritten := fun _ _ h => (step_frame h).1

/-- Settles O16: neither a command nor `raise` changes the operand registers. -/
theorem noCommandWritesOperandRegisters : Obligations.NoCommandWritesOperandRegisters :=
  fun _ _ _ h => (issue_frame h).1

/-- Settles O17: the moves that reach the operand registers are the three named. -/
theorem onlyHostWritesAndResetsChangeOperands : Obligations.OnlyHostWritesAndResetsChangeOperands := by
  intro s t h hne
  obtain ⟨m, rest, hin, hm⟩ := (step_frame h).2.resolve_left hne
  cases m with
  | writeReg i v => exact .inl ⟨i, v, rest, hin, hm⟩
  | reset => exact .inr (.inl ⟨rest, hin⟩)
  | resetDuring c => exact .inr (.inr ⟨c, rest, hin⟩)
  | readReg | issue | pokeCell | peekCell | pokeByte | peekByte => exact hm.elim

/-- Settles O10: the fields of `State.resetOn`. -/
theorem resetStateValues : Obligations.ResetStateValues :=
  ⟨fun _ _ => ⟨rfl, rfl, rfl, rfl, rfl, rfl⟩, Platform.standard, [], rfl⟩

/-- Settles O13: memory after reset is the initial one, and `STATUS.CODE` is 0. -/
theorem invariantHoldsAfterReset : Obligations.InvariantHoldsAfterReset := by
  have hreset : ∀ (p : Platform) (m : Mem), m.wf → (∀ q ∈ m, q.1 < p.memSamples.val) → MachineInv (State.resetOn p m) :=
    fun p m hwf hexists => ⟨hwf, hexists, (by decide : (0#2 : BitVec 2) ≠ 3#2)⟩
  exact ⟨hreset Platform.standard [] Mem.wf_nil (fun _ hq => nomatch hq), hreset⟩

end Sys2Proof.Proofs
end

section
/-! PROOFS. What a command reads and writes (10_state.md): `RES` after every command, the memory outside its output range,
and the operand registers its rule does not name. -/

namespace Sys2Proof.Machine

open Sys2Proof.Safety

/-! ### RES (rules R31, R166) -/

/-- The truncated mean is no larger in magnitude than a Sample can be, so the 32-bit divider holds it (rule R166). -/
theorem tdiv_exactSum_range (m : Mem) (b n : Nat) :
    -32768 ≤ (exactSum m b n).tdiv n ∧ (exactSum m b n).tdiv n ≤ 32768 := by
  have hsum : (exactSum m b n).natAbs ≤ n * 32768 := by
    have := exactSum_range m b n
    omega
  have hquot : ((exactSum m b n).tdiv n).natAbs ≤ 32768 := by
    rw [Int.natAbs_tdiv, Int.natAbs_natCast]
    exact Nat.div_le_of_le_mul hsum
  omega

/-- The word VMEAN leaves in `RES` is the sign-extended mean of the exact sum. -/
theorem meanWord_vmeanRun (s : State) : meanWord (vmeanRun s).acc s.count =
    (sat16 ((exactSum s.mem s.srcA s.count).tdiv s.count)).signExtend 32 := by
  have hrange := tdiv_exactSum_range s.mem s.srcA s.count
  rw [meanWord, (vmeanRun_spec s).2, lane0_sat16, toInt_ofInt32 (by omega) (by omega)]

theorem endMemoryCommand_res {s t : State} {i : Instr} {valid overlap : Bool} {b n : Nat} {m : Mem}
    (h : s.endMemoryCommand i valid overlap b n m = .next t) : t.res = s.res := (endMemoryCommand_frame h).2.1

theorem exec_res {i : Instr} {s t : State} (h : exec i s = .next t) : t.res = endResult i s := by
  cases i with
  | sat => cases h; rfl
  | clz => cases h; rfl
  | pack16 => cases h; rfl
  | unpk0 => cases h; rfl
  | unpk1 => cases h; rfl
  | qadd16x2 => cases h; rfl
  | qsub16x2 => cases h; rfl
  | vfill => exact endMemoryCommand_res h
  | vcopy => exact endMemoryCommand_res h
  | vadd => exact endMemoryCommand_res h
  | vsub => exact endMemoryCommand_res h
  | vmean =>
    simp only [exec, execVmean] at h
    simp only [endResult]
    split_ifs at h ⊢ <;> cases h
    · rfl
    · exact meanWord_vmeanRun s
  | vshift => exact endMemoryCommand_res h
  | vabs => exact endMemoryCommand_res h
  | mtrans =>
    simp only [exec, execMtrans] at h
    split_ifs at h
    · cases h; rfl
    · exact endMemoryCommand_res h

/-! ### The registers a command's rule names (rules R22 to R29) -/

/-- The operand registers set to `x`, everything else the same. -/
def State.withOps (x : OperandRegs) (s : State) : State := { s with ops := x }

/-- Without a forbidden overlap the end of a memory command reads no operand register but through its arguments. -/
theorem endMemoryCommand_withOps {s t : State} {i : Instr} {valid : Bool} {b n : Nat} {m : Mem} (x : OperandRegs)
    (h : s.endMemoryCommand i valid false b n m = .next t) :
    (s.withOps x).endMemoryCommand i valid false b n m = .next (t.withOps x) := by
  rcases endMemoryCommand_cases s i valid false b n m with ⟨-, e⟩ | ⟨-, hno, -⟩ | ⟨hvalid, -, e⟩
  · rw [e] at h; cases h
  · cases hno
  · rw [e] at h
    cases h
    exact endMemoryCommand_of_ok hvalid rfl

section NamedRegisters

variable {s t : State} {x : OperandRegs} {i : Instr}

theorem srcA_withOps (h : s.ops.srca = x.srca) : (s.withOps x).srcA = s.srcA := congrArg BitVec.toNat h.symm
theorem srcB_withOps (h : s.ops.srcb = x.srcb) : (s.withOps x).srcB = s.srcB := congrArg BitVec.toNat h.symm
theorem dstA_withOps (h : s.ops.dst = x.dst) : (s.withOps x).dstA = s.dstA := congrArg BitVec.toNat h.symm
theorem count_withOps (h : s.ops.len = x.len) : (s.withOps x).count = s.count := congrArg BitVec.toNat h.symm
theorem rows_withOps (h : s.ops.sdim = x.sdim) : (s.withOps x).rows = s.rows := congrArg dimRows h.symm
theorem cols_withOps (h : s.ops.sdim = x.sdim) : (s.withOps x).cols = s.cols := congrArg dimCols h.symm

@[simp] theorem withOps_platform : (s.withOps x).platform = s.platform := rfl
@[simp] theorem withOps_port : (s.withOps x).port = s.port := rfl
@[simp] theorem withOps_rangeValid (b n : Nat) : (s.withOps x).rangeValid b n = s.rangeValid b n := rfl

theorem execVfill_withOps {v : Sample} (hdst : s.ops.dst = x.dst) (hlen : s.ops.len = x.len)
    (h : execVfill v s = .next t) : execVfill v (s.withOps x) = .next (t.withOps x) := by
  simp only [execVfill, vfillPort, withOps_platform, withOps_port, withOps_rangeValid, dstA_withOps hdst,
    count_withOps hlen]
  exact endMemoryCommand_withOps x h

theorem endUnary_withOps {f : Sample → Sample} {f2 : Word → Word} (hsrca : s.ops.srca = x.srca)
    (hdst : s.ops.dst = x.dst) (hlen : s.ops.len = x.len) (hlock : Lockstep s.dstA s.srcA s.count)
    (h : s.endUnary i (s.unaryPort f f2) = .next t) :
    (s.withOps x).endUnary i ((s.withOps x).unaryPort f f2) = .next (t.withOps x) := by
  have hoverlap := (unaryOverlap_eq_false_iff s).2 hlock
  rw [State.endUnary, hoverlap] at h
  rw [State.unaryOverlap] at hoverlap
  simp only [State.endUnary, State.unaryPort, State.unaryValid, State.unaryOverlap, withOps_platform, withOps_port,
    withOps_rangeValid, srcA_withOps hsrca, dstA_withOps hdst, count_withOps hlen, hoverlap]
  exact endMemoryCommand_withOps x h

theorem endBinary_withOps {f : Sample → Sample → Sample} {f2 : Word → Word → Word} (hsrca : s.ops.srca = x.srca)
    (hsrcb : s.ops.srcb = x.srcb) (hdst : s.ops.dst = x.dst) (hlen : s.ops.len = x.len)
    (hlocks : Lockstep s.dstA s.srcA s.count ∧ Lockstep s.dstA s.srcB s.count)
    (h : s.endBinary i (s.binaryPort f f2) = .next t) :
    (s.withOps x).endBinary i ((s.withOps x).binaryPort f f2) = .next (t.withOps x) := by
  have hoverlap := (binaryOverlap_eq_false_iff s).2 hlocks
  rw [State.endBinary, hoverlap] at h
  rw [State.binaryOverlap, State.unaryOverlap] at hoverlap
  simp only [State.endBinary, State.binaryPort, State.binaryValid, State.unaryValid, State.binaryOverlap,
    State.unaryOverlap, withOps_platform, withOps_port, withOps_rangeValid, srcA_withOps hsrca, srcB_withOps hsrcb,
    dstA_withOps hdst, count_withOps hlen, hoverlap]
  exact endMemoryCommand_withOps x h

theorem execVmean_withOps (hsrca : s.ops.srca = x.srca) (hlen : s.ops.len = x.len) (h : execVmean s = .next t) :
    execVmean (s.withOps x) = .next (t.withOps x) := by
  simp only [execVmean, vmeanRun, withOps_platform, withOps_port, withOps_rangeValid, srcA_withOps hsrca,
    count_withOps hlen] at h ⊢
  split_ifs at h ⊢ <;> cases h <;> rfl

/-- `DDIM` is read only when the check is enabled (rule R27). -/
theorem shapeMismatch_withOps (hsdim : s.ops.sdim = x.sdim)
    (hddim : s.platform.straps.shapeCheckEn = true → s.ops.ddim = x.ddim) :
    (s.withOps x).shapeMismatch = s.shapeMismatch := by
  simp only [State.shapeMismatch, withOps_platform, rows_withOps hsdim, cols_withOps hsdim]
  cases hcheck : s.platform.straps.shapeCheckEn with
  | false => rfl
  | true => rw [hddim hcheck]; rfl

theorem execMtrans_withOps (hsrca : s.ops.srca = x.srca) (hdst : s.ops.dst = x.dst) (hsdim : s.ops.sdim = x.sdim)
    (hddim : s.platform.straps.shapeCheckEn = true → s.ops.ddim = x.ddim) (hover : OverlapOk .mtrans s)
    (h : execMtrans s = .next t) : execMtrans (s.withOps x) = .next (t.withOps x) := by
  rw [execMtrans] at h ⊢
  rw [shapeMismatch_withOps hsdim hddim]
  split_ifs at h ⊢ with hshape
  · cases h; rfl
  · have hdisjoint := hover ((shapeMismatch_eq_false_iff s).1 (Bool.eq_false_of_not_eq_true hshape))
    have hoverlap := (mtransOverlap_eq_false_iff s).2 hdisjoint
    rw [hoverlap] at h
    rw [State.mtransOverlap] at hoverlap
    simp only [State.mtransOverlap, State.mtransValid, mtransWalk, withOps_platform, withOps_port, withOps_rangeValid,
      srcA_withOps hsrca, dstA_withOps hdst, rows_withOps hsdim, cols_withOps hsdim, hoverlap]
    exact endMemoryCommand_withOps x h

/-- A primitive's result that is the same from either file ends the command in the same way. -/
theorem endWithResult_withOps {v w : Word} (h : v = w) :
    (.next ((s.withOps x).endWithResult w) : Host.Outcome State Fault Refusal) =
      .next ((s.endWithResult v).withOps x) := by rw [h]; rfl

/-- Where its output overlaps no input in a forbidden way, a command reads the registers its rule names and no other. -/
theorem exec_withOps (hnamed : NamedRegistersAgree i s.platform.straps s.ops x) (hover : OverlapOk i s)
    (h : exec i s = .next t) : exec i (s.withOps x) = .next (t.withOps x) := by
  cases i with
  | sat bits => cases h; exact endWithResult_withOps (congrArg (sat · bits) hnamed)
  | clz => cases h; exact endWithResult_withOps (congrArg (fun a => (BitVec.ofNat 6 (clz a)).setWidth 32) hnamed)
  | pack16 =>
    obtain ⟨hopa, hopb⟩ := hnamed
    cases h
    exact endWithResult_withOps
      (congrArg₂ (fun a b => pack16 s.platform.straps.endian (lane0 a) (lane0 b)) hopa hopb)
  | unpk0 =>
    cases h
    exact endWithResult_withOps (congrArg (fun a => (e0 s.platform.straps.endian a).signExtend 32) hnamed)
  | unpk1 =>
    cases h
    exact endWithResult_withOps (congrArg (fun a => (e1 s.platform.straps.endian a).signExtend 32) hnamed)
  | qadd16x2 => cases h; exact endWithResult_withOps (congrArg₂ qadd16x2 hnamed.1 hnamed.2)
  | qsub16x2 => cases h; exact endWithResult_withOps (congrArg₂ qsub16x2 hnamed.1 hnamed.2)
  | vfill v => exact execVfill_withOps hnamed.1 hnamed.2 h
  | vcopy => obtain ⟨hsrca, hdst, hlen⟩ := hnamed; exact endUnary_withOps hsrca hdst hlen hover h
  | vadd => obtain ⟨hsrca, hsrcb, hdst, hlen⟩ := hnamed; exact endBinary_withOps hsrca hsrcb hdst hlen hover h
  | vsub => obtain ⟨hsrca, hsrcb, hdst, hlen⟩ := hnamed; exact endBinary_withOps hsrca hsrcb hdst hlen hover h
  | vmean => exact execVmean_withOps hnamed.1 hnamed.2 h
  | vshift n => obtain ⟨hsrca, hdst, hlen⟩ := hnamed; exact endUnary_withOps hsrca hdst hlen hover h
  | vabs => obtain ⟨hsrca, hdst, hlen⟩ := hnamed; exact endUnary_withOps hsrca hdst hlen hover h
  | mtrans =>
    obtain ⟨hsrca, hdst, hsdim, hddim⟩ := hnamed
    exact execMtrans_withOps hsrca hdst hsdim hddim hover h

end NamedRegisters

end Sys2Proof.Machine

namespace Sys2Proof.Proofs

open Sys2Proof.Machine Sys2Proof.Safety

/-- Settles O18: what each end of a command leaves in `RES`; `raise` leaves it, and index 8 ignores a write. -/
theorem resultRegisterIsWrittenByReturningCommandsOnly :
    Obligations.ResultRegisterIsWrittenByReturningCommandsOnly := by
  refine ⟨fun _ _ _ => exec_res, fun s t c r hc h => ?_, fun s rest v hwrite => ?_⟩
  · rw [issue_error hc] at h
    cases h
    rfl
  · exact (step_writeReg hwrite).trans (writeHostReg_ignored _ v (by decide) (by decide))

/-- Settles O20: a write in the output range keeps the content of a cell outside it. -/
theorem memoryChangesOnlyInOutputRange : Obligations.MemoryChangesOnlyInOutputRange := by
  intro i s t a h hout
  refine exec_mem (Q := fun m => m.read a = s.mem.read a) h rfl fun m k v hk hm => ?_
  rw [Mem.read_write_other m v (by omega), hm]

/-- Settles O21: within the preconditions a command reads the registers its rule names only. -/
theorem commandsReadOnlyTheRegistersTheirRuleNames : Obligations.CommandsReadOnlyTheRegistersTheirRuleNames :=
  fun _ _ _ _ hnamed hpre h => exec_withOps hnamed hpre.2 h

end Sys2Proof.Proofs
end

section
/-! PROOFS. Valid addresses (20_memory.md): a command completes exactly on them, what a forbidden overlap leaves, and
the invariant that every step keeps. -/

namespace Sys2Proof.Machine

open Sys2Proof.Safety

/-! ### The two ways of MTRANS (rules R202, R246) -/

theorem shapeMismatch_of_rejected {s : State} (h : ¬ ShapeAccepted s) : s.shapeMismatch = true :=
  Bool.eq_true_of_not_eq_false (mt (shapeMismatch_eq_false_iff s).1 h)

theorem execMtrans_of_accepted {s : State} (h : ShapeAccepted s) : execMtrans s =
    s.endMemoryCommand .mtrans s.mtransValid s.mtransOverlap s.dstA (s.rows * s.cols) (mtransWalk s).port.mem := by
  simp [execMtrans, (shapeMismatch_eq_false_iff s).2 h]

theorem execMtrans_of_rejected {s : State} (h : ¬ ShapeAccepted s) : execMtrans s = .next (s.raise .sizeMismatch) := by
  simp [execMtrans, shapeMismatch_of_rejected h]

theorem outputRange_mtrans_of_accepted {s : State} (h : ShapeAccepted s) :
    outputRange .mtrans s = (s.dstA, s.rows * s.cols) := by
  simp [outputRange, (shapeMismatch_eq_false_iff s).2 h]

theorem outputRange_mtrans_of_rejected {s : State} (h : ¬ ShapeAccepted s) : outputRange .mtrans s = (s.dstA, 0) := by
  simp [outputRange, shapeMismatch_of_rejected h]

/-! ### A command completes exactly on valid addresses (rules R72, R228) -/

/-- The outcome is a next state where `P` holds and the fault of an invalid address where it does not. -/
def CompletesExactlyIf (P : Prop) (o : Host.Outcome State Fault Refusal) : Prop :=
  (P → ∃ t, o = .next t) ∧ (¬ P → o = .fault .invalidAddress)

theorem completesExactlyIf_of_next {P : Prop} (hP : P) (t : State) : CompletesExactlyIf P (.next t) :=
  ⟨fun _ => ⟨t, rfl⟩, fun h => absurd hP h⟩

theorem completesExactlyIf_of_fault {P : Prop} (hP : ¬ P) : CompletesExactlyIf P (.fault .invalidAddress) :=
  ⟨fun h => absurd h hP, fun _ => rfl⟩

theorem endMemoryCommand_completes {s : State} {i : Instr} {valid overlap : Bool} {b n : Nat} {m : Mem} {P : Prop}
    (hvalid : valid = true ↔ P) : CompletesExactlyIf P (s.endMemoryCommand i valid overlap b n m) := by
  cases valid with
  | true => exact completesExactlyIf_of_next (hvalid.1 rfl) _
  | false => exact completesExactlyIf_of_fault (mt hvalid.2 Bool.false_ne_true)

theorem execVmean_completes (s : State) : CompletesExactlyIf (RangeOk s s.srcA s.count) (execVmean s) := by
  rw [execVmean]
  by_cases hvalid : s.rangeValid s.srcA s.count = true
  · rw [if_pos hvalid]
    exact completesExactlyIf_of_next ((rangeValid_iff ..).1 hvalid) _
  · rw [if_neg hvalid]
    exact completesExactlyIf_of_fault (mt (rangeValid_iff ..).2 hvalid)

theorem execMtrans_completes (s : State) : CompletesExactlyIf (AddressesOk .mtrans s) (execMtrans s) := by
  by_cases haccepted : ShapeAccepted s
  · rw [execMtrans_of_accepted haccepted]
    exact endMemoryCommand_completes ((mtransValid_iff s).trans ⟨fun hranges _ => hranges, fun hok => hok haccepted⟩)
  · rw [execMtrans_of_rejected haccepted]
    exact completesExactlyIf_of_next (fun h => absurd h haccepted) _

theorem exec_completes (i : Instr) (s : State) : CompletesExactlyIf (AddressesOk i s) (exec i s) := by
  cases i with
  | sat | clz | pack16 | unpk0 | unpk1 | qadd16x2 | qsub16x2 => exact completesExactlyIf_of_next trivial _
  | vfill => exact endMemoryCommand_completes (rangeValid_iff ..)
  | vcopy | vshift | vabs => exact endMemoryCommand_completes (unaryValid_iff s)
  | vadd | vsub => exact endMemoryCommand_completes (binaryValid_iff s)
  | vmean => exact execVmean_completes s
  | mtrans => exact execMtrans_completes s

theorem addressesOk_of_exec {i : Instr} {s t : State} (h : exec i s = .next t) : AddressesOk i s := by
  by_contra hinvalid
  rw [(exec_completes i s).2 hinvalid] at h
  cases h

/-- The output range of a command is among the addresses it accesses. -/
theorem rangeOk_outputRange {i : Instr} {s : State} (h : AddressesOk i s) :
    RangeOk s (outputRange i s).1 (outputRange i s).2 := by
  cases i with
  | sat | clz | pack16 | unpk0 | unpk1 | qadd16x2 | qsub16x2 | vmean => exact .inl rfl
  | vfill => exact h
  | vcopy | vshift | vabs => exact h.2
  | vadd | vsub => exact h.2.2
  | mtrans =>
    by_cases haccepted : ShapeAccepted s
    · rw [outputRange_mtrans_of_accepted haccepted]
      exact (h haccepted).2
    · rw [outputRange_mtrans_of_rejected haccepted]
      exact .inl rfl

/-! ### A forbidden overlap (rule R74; log entry 6) -/

theorem eq_true_of_not_iff {b : Bool} {P : Prop} (h : b = false ↔ P) (hP : ¬ P) : b = true :=
  Bool.eq_true_of_not_eq_false (mt h.1 hP)

theorem execMtrans_of_overlap {s : State} (haddr : AddressesOk .mtrans s) (hoverlap : ¬ OverlapOk .mtrans s) :
    execMtrans s = .next (s.endUndefinedOutput .mtrans (outputRange .mtrans s).1 (outputRange .mtrans s).2) := by
  obtain ⟨haccepted, hmeet⟩ := Classical.not_imp.1 hoverlap
  rw [execMtrans_of_accepted haccepted, outputRange_mtrans_of_accepted haccepted]
  exact endMemoryCommand_of_overlap ((mtransValid_iff s).2 (haddr haccepted))
    (eq_true_of_not_iff (mtransOverlap_eq_false_iff s) hmeet)

theorem exec_of_overlap {i : Instr} {s : State} (haddr : AddressesOk i s) (hoverlap : ¬ OverlapOk i s) :
    exec i s = .next (s.endUndefinedOutput i (outputRange i s).1 (outputRange i s).2) := by
  cases i with
  | sat | clz | pack16 | unpk0 | unpk1 | qadd16x2 | qsub16x2 | vfill | vmean => exact absurd trivial hoverlap
  | vcopy | vshift | vabs =>
    exact endMemoryCommand_of_overlap ((unaryValid_iff s).2 haddr)
      (eq_true_of_not_iff (unaryOverlap_eq_false_iff s) hoverlap)
  | vadd | vsub =>
    exact endMemoryCommand_of_overlap ((binaryValid_iff s).2 haddr)
      (eq_true_of_not_iff (binaryOverlap_eq_false_iff s) hoverlap)
  | mtrans => exact execMtrans_of_overlap haddr hoverlap

/-! ### STATUS.CODE after a command (rule R241) -/

theorem endCode_eq_zero {i : Instr} {s : State} (h : i = .mtrans → ShapeAccepted s) : endCode i s = 0#2 :=
  if_neg fun hfails => hfails.2 (h hfails.1)

theorem endCode_mtrans_of_rejected {s : State} (h : ¬ ShapeAccepted s) : endCode .mtrans s = 1#2 := if_pos ⟨rfl, h⟩

theorem endCode_ne_three (i : Instr) (s : State) : endCode i s ≠ 3#2 := by
  unfold endCode
  split_ifs <;> decide

theorem endMemoryCommand_code {s t : State} {i : Instr} {valid overlap : Bool} {b n : Nat} {m : Mem}
    (h : s.endMemoryCommand i valid overlap b n m = .next t) : t.code = 0#2 := (endMemoryCommand_frame h).2.2.1

theorem execVmean_code {s t : State} (h : execVmean s = .next t) : t.code = 0#2 := by
  unfold execVmean at h
  split_ifs at h <;> cases h <;> rfl

theorem execMtrans_code {s t : State} (h : execMtrans s = .next t) : t.code = endCode .mtrans s := by
  by_cases haccepted : ShapeAccepted s
  · rw [execMtrans_of_accepted haccepted] at h
    exact (endMemoryCommand_code h).trans (endCode_eq_zero fun _ => haccepted).symm
  · rw [execMtrans_of_rejected haccepted] at h
    cases h
    exact (endCode_mtrans_of_rejected haccepted).symm

theorem exec_code {i : Instr} {s t : State} (h : exec i s = .next t) : t.code = endCode i s := by
  by_cases hi : i = .mtrans
  · subst hi
    exact execMtrans_code h
  · rw [endCode_eq_zero fun e => absurd e hi]
    cases i with
    | sat | clz | pack16 | unpk0 | unpk1 | qadd16x2 | qsub16x2 => cases h; rfl
    | vfill | vcopy | vadd | vsub | vshift | vabs => exact endMemoryCommand_code h
    | vmean => exact execVmean_code h
    | mtrans => exact absurd rfl hi

end Sys2Proof.Machine

namespace Sys2Proof

/-! ### The memory part of the invariant (rules R60, R61) -/

/-- The memory is canonical and lists only cells below `k`. -/
def Mem.WfBelow (k : Nat) (m : Mem) : Prop := m.wf ∧ ∀ p ∈ m, p.1 < k

theorem Mem.WfBelow.write {k : Nat} {m : Mem} (h : m.WfBelow k) {a : Nat} (v : Sample) (ha : a < k) :
    (m.write a v).WfBelow k := ⟨Mem.wf_write a v h.1, Mem.listed_lt_write v ha h.2⟩

theorem Mem.WfBelow.writeRange {k : Nat} {m : Mem} (h : m.WfBelow k) (f : Nat → Sample) {b n : Nat}
    (hb : n = 0 ∨ b + n ≤ k) : (Machine.writeRange f b n m).WfBelow k :=
  ⟨Machine.writeRange_wf f b n h.1, Machine.writeRange_listed_lt f b n hb h.2⟩

namespace Machine

open Sys2Proof.Safety

theorem machineInv_iff (s : State) : MachineInv s ↔ s.mem.WfBelow s.platform.memSamples.val ∧ s.code ≠ 3#2 :=
  ⟨fun ⟨hwf, hexists, hcode⟩ => ⟨⟨hwf, hexists⟩, hcode⟩, fun ⟨⟨hwf, hexists⟩, hcode⟩ => ⟨hwf, hexists, hcode⟩⟩

/-! ### Every move keeps the invariant -/

theorem exec_keeps_inv {i : Instr} {s t : State} (hs : MachineInv s) (h : exec i s = .next t) : MachineInv t := by
  obtain ⟨hmem, -⟩ := (machineInv_iff s).1 hs
  obtain ⟨-, hplatform, -, -⟩ := exec_frame h
  have hrange := rangeOk_outputRange (addressesOk_of_exec h)
  rw [machineInv_iff, hplatform]
  refine ⟨exec_mem h hmem fun m k v hk hm => hm.write v ?_, exec_code h ▸ endCode_ne_three i s⟩
  unfold RangeOk at hrange
  omega

theorem issue_keeps_inv {s t : State} {c : Word} (hs : MachineInv s) (h : s.issue c = .next t) : MachineInv t := by
  cases hc : decode c with
  | ok i => exact exec_keeps_inv hs (issue_ok hc ▸ h)
  | error r =>
    rw [issue_error hc] at h
    cases h
    exact ⟨hs.memCanonical, hs.memExists, (by decide : (2#2 : BitVec 2) ≠ 3#2)⟩

theorem writeHostReg_keeps_inv {s t : State} {i : Fin 16} {v : Word} (hs : MachineInv s)
    (h : s.writeHostReg (hostReg i) v = .next t) : MachineInv t := by
  by_cases hlt : i.val < 8
  · obtain ⟨x, hx, -⟩ := writeHostReg_operand s v hlt
    rw [hx] at h
    cases h
    exact ⟨hs.memCanonical, hs.memExists, hs.codeProduced⟩
  by_cases hcmd : i.val = 11
  · exact issue_keeps_inv hs (writeHostReg_cmd s v hcmd ▸ h)
  · rw [writeHostReg_ignored s v (Nat.not_lt.1 hlt) hcmd] at h
    cases h
    exact hs

theorem resetUnit_keeps_inv {s : State} (hs : MachineInv s) : MachineInv s.resetUnit :=
  ⟨hs.memCanonical, hs.memExists, (by decide : (0#2 : BitVec 2) ≠ 3#2)⟩

/-- The cells an abandoned command may leave new lie in its output range, which exists (rule R271). -/
theorem abandon_keeps_inv {i : Instr} {s t : State} (hs : MachineInv s) (h : exec i s = .next t) :
    MachineInv (s.abandon i t) := by
  obtain ⟨hmem, -⟩ := (machineInv_iff s).1 hs
  have hnew : Mem.WfBelow _ (abandonedMemory i s t) :=
    hmem.writeRange _ (rangeOk_outputRange (addressesOk_of_exec h))
  exact (machineInv_iff _).2 ⟨hnew, (by decide : (0#2 : BitVec 2) ≠ 3#2)⟩

theorem resetDuring_keeps_inv {s t : State} {c : Word} (hs : MachineInv s) (h : s.resetDuring c = .next t) :
    MachineInv t := by
  rcases resetDuring_next h with ⟨-, rfl⟩ | ⟨i, u, -, hu, rfl⟩
  · exact resetUnit_keeps_inv hs
  · exact abandon_keeps_inv hs hu

/-- A host write of an existing cell keeps the invariant. -/
theorem write_keeps_inv {s : State} {a : Nat} (v : Sample) (hs : MachineInv s) (ha : a < s.platform.memSamples.val) :
    MachineInv { s with mem := s.mem.write a v } :=
  ⟨Mem.wf_write a v hs.memCanonical, Mem.listed_lt_write v ha hs.memExists, hs.codeProduced⟩

theorem deliver_keeps_inv {s : State} (v : HostValue) (hs : MachineInv s) : MachineInv (s.deliver v) :=
  ⟨hs.memCanonical, hs.memExists, hs.codeProduced⟩

theorem move_keeps_inv {s t : State} {m : HostMove} (hs : MachineInv s) (h : s.move m = .next t) : MachineInv t := by
  cases m with
  | writeReg i v => exact writeHostReg_keeps_inv hs h
  | readReg i => cases h; exact deliver_keeps_inv _ hs
  | issue c => exact issue_keeps_inv hs h
  | pokeCell a v => obtain ⟨ha, rfl⟩ := atCell_next h; exact write_keeps_inv v hs ha
  | peekCell a => obtain ⟨-, rfl⟩ := atCell_next h; exact deliver_keeps_inv _ hs
  | pokeByte b v => obtain ⟨hb, rfl⟩ := atCell_next h; exact write_keeps_inv _ hs hb
  | peekByte b => obtain ⟨-, rfl⟩ := atCell_next h; exact deliver_keeps_inv _ hs
  | reset => cases h; exact resetUnit_keeps_inv hs
  | resetDuring c => exact resetDuring_keeps_inv hs h

theorem step_keeps_inv {s t : State} (hs : MachineInv s) (h : step s = .next t) : MachineInv t := by
  cases hin : s.hostIn with
  | nil =>
    rw [step_nil hin] at h
    cases h
    exact hs
  | cons m rest =>
    rw [step_cons hin] at h
    have htaken : MachineInv { s with hostIn := rest } := ⟨hs.memCanonical, hs.memExists, hs.codeProduced⟩
    exact move_keeps_inv htaken h

end Machine

end Sys2Proof

namespace Sys2Proof.Proofs

open Sys2Proof.Machine Sys2Proof.Safety

/-- Settles O14: no move writes a cell that does not exist, and none leaves code 3. -/
theorem everyStepKeepsInvariant : Obligations.EveryStepKeepsInvariant := fun _ _ => step_keeps_inv

/-- Settles O22: the range check of each command is the validity of the addresses it accesses. -/
theorem commandsCompleteExactlyOnValidAddresses : Obligations.CommandsCompleteExactlyOnValidAddresses :=
  exec_completes

/-- Settles O23: such a command ends in `State.endUndefinedOutput`, which writes its output range. -/
theorem forbiddenOverlapLeavesOnlyOutputUnknown : Obligations.ForbiddenOverlapLeavesOnlyOutputUnknown :=
  fun _ _ haddr hoverlap =>
    ⟨_, exec_of_overlap haddr hoverlap, rfl, fun _ hout => writeRange_read_outside _ _ _ _ hout⟩

end Sys2Proof.Proofs
end

section
/-! PROOFS. Single, pair and byte accesses to the Sample memory (20_memory.md). -/

namespace Sys2Proof.Machine

/-! ### The two bytes of a Sample (rule R65) -/

/-- The more or the less significant byte of a Sample. -/
def byteOf (high : Bool) (x : Sample) : Byte := if high then x.extractLsb' 8 8 else x.extractLsb' 0 8

/-- A Sample with its more or its less significant byte replaced. -/
def withByte (high : Bool) (x : Sample) (v : Byte) : Sample :=
  if high then (v ++ x.extractLsb' 0 8 : BitVec (8 + 8)) else (x.extractLsb' 8 8 ++ v : BitVec (8 + 8))

theorem byteOf_true_append (hi lo : Byte) : byteOf true (hi ++ lo : BitVec (8 + 8)) = hi :=
  BitVec.extractLsb'_append_eq_left

theorem byteOf_false_append (hi lo : Byte) : byteOf false (hi ++ lo : BitVec (8 + 8)) = lo :=
  BitVec.extractLsb'_append_eq_right

theorem byteOf_withByte (high high' : Bool) (x : Sample) (v : Byte) :
    byteOf high' (withByte high x v) = if high' = high then v else byteOf high' x := by
  cases high <;> cases high'
  · exact byteOf_false_append ..
  · exact byteOf_true_append ..
  · exact byteOf_false_append ..
  · exact byteOf_true_append ..

theorem toNat_byteOf_true (x : Sample) : (byteOf true x).toNat = x.toNat / 256 := by
  have := x.isLt
  simp only [byteOf, if_true, BitVec.extractLsb'_toNat, Nat.shiftRight_eq_div_pow]
  omega

theorem toNat_byteOf_false (x : Sample) : (byteOf false x).toNat = x.toNat % 256 := by
  simp [byteOf, BitVec.extractLsb'_toNat]

theorem toNat_lanes (hi lo : Sample) : (lanes hi lo).toNat = hi.toNat * 65536 + lo.toNat := by
  have h : (lanes hi lo).toNat = hi.toNat <<< 16 ||| lo.toNat := BitVec.toNat_append ..
  rw [h, ← Nat.shiftLeft_add_eq_or_of_lt lo.isLt, Nat.shiftLeft_eq]

end Sys2Proof.Machine

namespace Sys2Proof

open Sys2Proof.Machine

/-! ### Pairs (rules R63, R64) -/

theorem Mem.toNat_readPair_little (m : Mem) (a : Nat) :
    (m.readPair .little a).toNat = (m.read (a + 1)).toNat * 65536 + (m.read a).toNat := toNat_lanes ..

theorem Mem.toNat_readPair_big (m : Mem) (a : Nat) :
    (m.readPair .big a).toNat = (m.read a).toNat * 65536 + (m.read (a + 1)).toNat := toNat_lanes ..

theorem Mem.read_writePair {m : Mem} (e : Endian) (a b : Nat) (w : Word) (hm : m.wf) :
    (m.writePair e a w).read b = if b = a then e0 e w else if b = a + 1 then e1 e w else m.read b := by
  rw [Mem.writePair, Mem.read_write _ _ _ (Mem.wf_write _ _ hm), Mem.read_write _ _ _ hm]
  by_cases h : b = a
  · rw [if_neg (by omega), if_pos h, if_pos h]
  · rw [if_neg h, if_neg h]

theorem Mem.readPair_writePair {m : Mem} (e : Endian) (a : Nat) (w : Word) (hm : m.wf) :
    (m.writePair e a w).readPair e a = w := by
  have h0 : (m.writePair e a w).read a = e0 e w := (Mem.read_writePair e a a w hm).trans (if_pos rfl)
  have h1 : (m.writePair e a w).read (a + 1) = e1 e w :=
    (Mem.read_writePair e a (a + 1) w hm).trans ((if_neg (by omega)).trans (if_pos rfl))
  rw [Mem.readPair, h0, h1, pack16_e0_e1]

theorem Mem.writePair_readPair {m : Mem} (e : Endian) (a : Nat) (hm : m.wf) : m.writePair e a (m.readPair e a) = m := by
  refine Mem.ext_read (Mem.wf_writePair e a _ hm) hm fun b => ?_
  rw [Mem.read_writePair _ _ _ _ hm, Mem.readPair, e0_pack16, e1_pack16]
  split_ifs with h0 h1
  · rw [h0]
  · rw [h1]
  · rfl

/-! ### Bytes (rule R65) -/

theorem Mem.readByte_eq (e : Endian) (m : Mem) (b : Nat) :
    m.readByte e b = byteOf (byteIsHigh e b) (m.read (b / 2)) := rfl

theorem Mem.writeByte_eq (e : Endian) (m : Mem) (b : Nat) (v : Byte) :
    m.writeByte e b v = m.write (b / 2) (withByte (byteIsHigh e b) (m.read (b / 2)) v) := rfl

/-- The two bytes of one cell differ in significance. -/
theorem byteIsHigh_eq_iff (e : Endian) {b b' : Nat} (h : b' / 2 = b / 2) :
    byteIsHigh e b' = byteIsHigh e b ↔ b' = b := by
  rw [Bool.eq_iff_iff]
  cases e <;> simp only [byteIsHigh, beq_iff_eq] <;> omega

theorem Mem.readByte_writeByte {m : Mem} (e : Endian) (b b' : Nat) (v : Byte) (hm : m.wf) :
    (m.writeByte e b v).readByte e b' = if b' = b then v else m.readByte e b' := by
  rw [Mem.writeByte_eq, Mem.readByte_eq, Mem.readByte_eq, Mem.read_write _ _ _ hm]
  by_cases h : b' / 2 = b / 2
  · rw [if_pos h, byteOf_withByte, h]
    exact if_congr (byteIsHigh_eq_iff e h) rfl rfl
  · rw [if_neg h, if_neg fun hb => h (by rw [hb])]

theorem Mem.readByte_even (e : Endian) (m : Mem) (a : Nat) :
    m.readByte e (2 * a) = byteOf (decide (e = .big)) (m.read a) := by
  rw [Mem.readByte_eq, Nat.mul_div_cancel_left a (by decide)]
  cases e <;> simp [byteIsHigh]

theorem Mem.readByte_odd (e : Endian) (m : Mem) (a : Nat) :
    m.readByte e (2 * a + 1) = byteOf (decide (e = .little)) (m.read a) := by
  rw [Mem.readByte_eq, show (2 * a + 1) / 2 = a by omega]
  cases e <;> simp [byteIsHigh, Nat.add_mod]

end Sys2Proof

namespace Sys2Proof.Machine

/-! ### The host's byte moves -/

section Moves

variable {s : State} {rest : List HostMove} {b : Nat}

theorem step_pokeByte {v : Byte} (h : s.hostIn = .pokeByte b v :: rest) :
    step s = State.atCell { s with hostIn := rest } (b / 2)
      { s with hostIn := rest, mem := s.mem.writeByte s.platform.straps.endian b v } := step_cons h

theorem step_peekByte (h : s.hostIn = .peekByte b :: rest) :
    step s = State.atCell { s with hostIn := rest } (b / 2)
      (State.deliver { s with hostIn := rest } (.byte (s.mem.readByte s.platform.straps.endian b))) := step_cons h

end Moves

end Sys2Proof.Machine

namespace Sys2Proof.Proofs

open Sys2Proof.Machine Sys2Proof.Safety

/-- Settles O9: the step of either move is `State.atCell`, and a canonical memory reads back the byte written. -/
theorem hostSetsAndReadsBytes : Obligations.HostSetsAndReadsBytes := by
  intro s rest b v hinv
  refine ⟨fun hb hpoke => ?_, fun hb hpeek => ?_, fun hb hmove => ?_⟩
  · exact ⟨_, (step_pokeByte hpoke).trans (atCell_of_lt _ hb), rfl,
      fun b' => Mem.readByte_writeByte _ b b' v hinv.memCanonical⟩
  · exact (step_peekByte hpeek).trans (atCell_of_lt _ hb)
  · rcases hmove with hpoke | hpeek
    · exact (step_pokeByte hpoke).trans (atCell_of_le _ hb)
    · exact (step_peekByte hpeek).trans (atCell_of_le _ hb)

/-- Settles O50: a write reads back in a canonical memory, and a word is its two lanes. -/
theorem singleAndPairAccesses : Obligations.SingleAndPairAccesses := fun m a hm =>
  ⟨fun v b => Mem.read_write a b v hm, Mem.toNat_readPair_little m a, Mem.toNat_readPair_big m a,
    fun w b => ⟨Mem.read_writePair .little a b w hm, Mem.read_writePair .big a b w hm⟩⟩

/-- Settles O52: the even and the odd byte of a cell under each strap, put together by significance. -/
theorem byteViewMatchesNativeWord : Obligations.ByteViewMatchesNativeWord := by
  intro m a hm
  refine ⟨⟨Mem.readByte_even .little m a, Mem.readByte_odd .little m a⟩,
    ⟨Mem.readByte_even .big m a, Mem.readByte_odd .big m a⟩, ?_, ?_, fun e b b' v => Mem.readByte_writeByte e b b' v hm⟩
  · rw [Mem.toNat_readPair_little, show 2 * a + 2 = 2 * (a + 1) by omega, show 2 * a + 3 = 2 * (a + 1) + 1 by omega]
    simp only [Mem.readByte_even, Mem.readByte_odd, reduceCtorEq, decide_true, decide_false, toNat_byteOf_true,
      toNat_byteOf_false]
    omega
  · rw [Mem.toNat_readPair_big, show 2 * a + 2 = 2 * (a + 1) by omega, show 2 * a + 3 = 2 * (a + 1) + 1 by omega]
    simp only [Mem.readByte_even, Mem.readByte_odd, reduceCtorEq, decide_true, decide_false, toNat_byteOf_true,
      toNat_byteOf_false]
    omega

end Sys2Proof.Proofs
end

section
/-! PROOFS. The `ENDIAN` strap cannot be seen in memory (20_memory.md): every run of the sequencer leaves the same
memory under both values of the strap. -/

namespace Sys2Proof.Machine

open Sys2Proof.Safety

/-! ### The absolute value in both lanes (rules R131, R132, R226) -/

theorem absSelect_qsub16_zero (x : Sample) : absSelect x (qsub16 0#16 x) = scalarAbs x := by
  unfold absSelect scalarAbs
  rw [BitVec.msb_eq_toInt]
  by_cases hnonneg : 0 ≤ x.toInt
  · rw [if_neg (by simpa using hnonneg), if_pos hnonneg]
  · rw [if_pos (by simpa using hnonneg), if_neg hnonneg]
    by_cases hmin : x = 0x8000#16
    · subst hmin
      decide
    · have hne : x.toInt ≠ -32768 := fun h => hmin (BitVec.eq_of_toInt_eq h)
      have hrange := sample_range x
      rw [if_neg hmin]
      apply BitVec.eq_of_toInt_eq
      rw [toInt_qsub16, toInt_ofInt16 (by omega) (by omega), BitVec.toInt_zero]
      omega

theorem lanewise_abs16x2 : Lanewise abs16x2 scalarAbs := fun w => by
  have h0 : lane0 (qsub16x2 0x00000000#32 w) = qsub16 0#16 (lane0 w) := lane0_lanes ..
  have h1 : lane1 (qsub16x2 0x00000000#32 w) = qsub16 0#16 (lane1 w) := lane1_lanes ..
  constructor
  · rw [abs16x2, lane0_lanes, h0, absSelect_qsub16_zero]
  · rw [abs16x2, lane1_lanes, h1, absSelect_qsub16_zero]

/-! ### The memory a run leaves under either value of the strap (rule R64) -/

section Endian

variable {s t : State} {i : Instr} (e : Endian)

@[simp] theorem withEndian_rangeValid (b n : Nat) : (withEndian e s).rangeValid b n = s.rangeValid b n := rfl

/-- Two canonical memories with the same content, which the strap does not enter, are one. -/
theorem mem_eq_of_same_reads {m m' : Mem} {c : Nat → Sample} (h : m.wf ∧ ∀ a, m.read a = c a)
    (h' : m'.wf ∧ ∀ a, m'.read a = c a) : m' = m :=
  Mem.ext_read h'.1 h.1 fun a => (h'.2 a).trans (h.2 a).symm

theorem vfillPort_mem_withEndian (v : Sample) (hm : s.mem.wf) :
    (vfillPort v (withEndian e s)).mem = (vfillPort v s).mem :=
  mem_eq_of_same_reads (vfillPort_spec v hm) (vfillPort_spec (s := withEndian e s) v hm)

theorem unaryPort_mem_withEndian {f : Sample → Sample} {f2 : Word → Word} (hf : Lanewise f2 f) (hm : s.mem.wf)
    (hlock : Lockstep s.dstA s.srcA s.count) :
    ((withEndian e s).unaryPort f f2).mem = (s.unaryPort f f2).mem :=
  mem_eq_of_same_reads (unaryPort_spec hf hm hlock) (unaryPort_spec (s := withEndian e s) hf hm hlock)

theorem binaryPort_mem_withEndian {f : Sample → Sample → Sample} {f2 : Word → Word → Word} (hf : Lanewise2 f2 f)
    (hm : s.mem.wf) (hlocks : Lockstep s.dstA s.srcA s.count ∧ Lockstep s.dstA s.srcB s.count) :
    ((withEndian e s).binaryPort f f2).mem = (s.binaryPort f f2).mem :=
  mem_eq_of_same_reads (binaryPort_spec hf hm hlocks.1 hlocks.2)
    (binaryPort_spec (s := withEndian e s) hf hm hlocks.1 hlocks.2)

theorem mtransWalk_mem_withEndian (hm : s.mem.wf) (hdisjoint : RangesDisjoint s.srcA s.dstA (s.rows * s.cols)) :
    (mtransWalk (withEndian e s)).port.mem = (mtransWalk s).port.mem :=
  mem_eq_of_same_reads (mtransWalk_spec hm hdisjoint) (mtransWalk_spec (s := withEndian e s) hm hdisjoint)

/-! ### The whole next state under either value of the strap -/

/-- Without a forbidden overlap the end of a memory command does not depend on the strap. -/
theorem endMemoryCommand_withEndian {valid overlap : Bool} {b n : Nat} {m m' : Mem} (hmem : m' = m)
    (hoverlap : overlap = false) (h : s.endMemoryCommand i valid overlap b n m = .next t) :
    (withEndian e s).endMemoryCommand i valid overlap b n m' = .next (withEndian e t) := by
  subst hmem hoverlap
  cases valid with
  | true => cases h; rfl
  | false => cases h

theorem endUnary_withEndian {f : Sample → Sample} {f2 : Word → Word} (hf : Lanewise f2 f) (hm : s.mem.wf)
    (hlock : Lockstep s.dstA s.srcA s.count) (h : s.endUnary i (s.unaryPort f f2) = .next t) :
    (withEndian e s).endUnary i ((withEndian e s).unaryPort f f2) = .next (withEndian e t) :=
  endMemoryCommand_withEndian e (unaryPort_mem_withEndian e hf hm hlock) ((unaryOverlap_eq_false_iff s).2 hlock) h

theorem endBinary_withEndian {f : Sample → Sample → Sample} {f2 : Word → Word → Word} (hf : Lanewise2 f2 f)
    (hm : s.mem.wf) (hlocks : Lockstep s.dstA s.srcA s.count ∧ Lockstep s.dstA s.srcB s.count)
    (h : s.endBinary i (s.binaryPort f f2) = .next t) :
    (withEndian e s).endBinary i ((withEndian e s).binaryPort f f2) = .next (withEndian e t) :=
  endMemoryCommand_withEndian e (binaryPort_mem_withEndian e hf hm hlocks) ((binaryOverlap_eq_false_iff s).2 hlocks) h

theorem execVmean_of_valid (h : RangeOk s s.srcA s.count) : execVmean s =
    .next (if s.count = 0 then s.endWithMemory s.mem else s.endWithResult (endResult .vmean s)) := by
  rw [execVmean, if_pos ((rangeValid_iff ..).2 h), meanWord_vmeanRun, endResult]
  split_ifs <;> rfl

/-- The mean is that of the exact sum, which the strap does not enter. -/
theorem execVmean_withEndian (h : execVmean s = .next t) : execVmean (withEndian e s) = .next (withEndian e t) := by
  have hrange : RangeOk s s.srcA s.count := addressesOk_of_exec (i := .vmean) h
  rw [execVmean_of_valid hrange] at h
  cases h
  refine (execVmean_of_valid (s := withEndian e s) hrange).trans ?_
  by_cases hcount : s.count = 0
  · rw [if_pos hcount, if_pos (show (withEndian e s).count = 0 from hcount)]; rfl
  · rw [if_neg hcount, if_neg (show ¬ (withEndian e s).count = 0 from hcount)]; rfl

theorem execMtrans_withEndian (hm : s.mem.wf) (hover : OverlapOk .mtrans s) (h : execMtrans s = .next t) :
    execMtrans (withEndian e s) = .next (withEndian e t) := by
  by_cases haccepted : ShapeAccepted s
  · have hdisjoint := hover haccepted
    rw [execMtrans_of_accepted haccepted] at h
    rw [execMtrans_of_accepted (s := withEndian e s) haccepted]
    exact endMemoryCommand_withEndian e (mtransWalk_mem_withEndian e hm hdisjoint)
      ((mtransOverlap_eq_false_iff s).2 hdisjoint) h
  · rw [execMtrans_of_rejected haccepted] at h
    cases h
    exact execMtrans_of_rejected (s := withEndian e s) haccepted

/-- A command that returns neither a packed word nor an element of one. -/
def EndianFree (i : Instr) : Prop := i ≠ .pack16 ∧ i ≠ .unpk0 ∧ i ≠ .unpk1

theorem exec_withEndian (hi : EndianFree i) (hm : s.mem.wf) (hover : OverlapOk i s) (h : exec i s = .next t) :
    exec i (withEndian e s) = .next (withEndian e t) := by
  obtain ⟨hpack16, hunpk0, hunpk1⟩ := hi
  cases i with
  | sat | clz | qadd16x2 | qsub16x2 => cases h; rfl
  | pack16 => exact absurd rfl hpack16
  | unpk0 => exact absurd rfl hunpk0
  | unpk1 => exact absurd rfl hunpk1
  | vfill v => exact endMemoryCommand_withEndian e (vfillPort_mem_withEndian e v hm) rfl h
  | vcopy => exact endUnary_withEndian e lanewise_id hm hover h
  | vadd => exact endBinary_withEndian e lanewise_qadd16 hm hover h
  | vsub => exact endBinary_withEndian e lanewise_qsub16 hm hover h
  | vmean => exact execVmean_withEndian e h
  | vshift n => exact endUnary_withEndian e (lanewise_shiftPipeline n) hm hover h
  | vabs => exact endUnary_withEndian e lanewise_abs16x2 hm hover h
  | mtrans => exact execMtrans_withEndian e hm hover h

/-- Two results of a primitive command leave one memory and one code. -/
theorem endWithResult_mem_code_withEndian (v w : Word) :
    ((withEndian e s).endWithResult w).mem = (s.endWithResult v).mem ∧
      ((withEndian e s).endWithResult w).code = (s.endWithResult v).code := ⟨rfl, rfl⟩

/-- PACK16, UNPK0 and UNPK1 show the strap in `RES` alone. -/
theorem exec_withEndian_packing (hi : ¬ EndianFree i) (h : exec i s = .next t) :
    ∃ u, exec i (withEndian e s) = .next u ∧ u.mem = t.mem ∧ u.code = t.code := by
  have hfree (h0 : i ≠ .pack16) (h1 : i ≠ .unpk0) (h2 : i ≠ .unpk1) : False := hi ⟨h0, h1, h2⟩
  cases i with
  | pack16 | unpk0 | unpk1 => cases h; exact ⟨_, rfl, endWithResult_mem_code_withEndian e _ _⟩
  | _ => exact (hfree nofun nofun nofun).elim

end Endian

end Sys2Proof.Machine

namespace Sys2Proof.Proofs

open Sys2Proof.Machine Sys2Proof.Safety

/-- Settles O51: every run leaves the end state of its rule, which the strap does not enter. -/
theorem endianCannotBeSeenInMemory : Obligations.EndianCannotBeSeenInMemory := by
  refine ⟨fun e m a w hm => ⟨Mem.readPair_writePair e a w hm, Mem.writePair_readPair e a hm⟩, fun i s hinv hpre => ?_⟩
  obtain ⟨haddr, hover⟩ := hpre
  obtain ⟨t, ht⟩ := (exec_completes i s).1 haddr
  refine ⟨t, fun e => ?_⟩
  by_cases hi : EndianFree i
  · exact ⟨_, exec_withEndian e hi hinv.memCanonical hover ht, rfl, rfl, fun _ _ _ => rfl⟩
  · obtain ⟨u, hu, hmem, hcode⟩ := exec_withEndian_packing e hi ht
    exact ⟨u, hu, hmem, hcode, fun h0 h1 h2 => absurd ⟨h0, h1, h2⟩ hi⟩

end Sys2Proof.Proofs
end

section
/-! PROOFS. The accesses of a command (20_memory.md): reads come before the write they feed, each output cell is written
once and each input element read once. -/

namespace Sys2Proof.Machine

open Sys2Proof.Safety

/-! ### The log of a run in progress, latest access first (rule R76) -/

/-- Every cell written by an access of the log has the cells it is made from, `sources`, read by earlier accesses. -/
def ReadsPrecede (sources : Nat → List Nat) : List Access → Prop
  | [] => True
  | x :: earlier =>
    (∀ a ∈ x.writes, ∀ b ∈ sources a, b ∈ earlier.flatMap Access.reads) ∧ ReadsPrecede sources earlier

theorem ReadsPrecede.of_append {sources : Nat → List Nat} {later : List Access} {x : Access} {earlier : List Access}
    (h : ReadsPrecede sources (later ++ x :: earlier)) :
    ∀ a ∈ x.writes, ∀ b ∈ sources a, b ∈ earlier.flatMap Access.reads := by
  induction later with
  | nil => exact h.1
  | cons y later ih => exact ih h.2

/-- A run that has read the cells `reads` and written the cells `writes`, reads before the writes they feed. -/
structure RunLog (sources : Nat → List Nat) (reads writes : List Nat) (log : List Access) : Prop where
  reads : (log.flatMap Access.reads).Perm reads
  writes : (log.flatMap Access.writes).Perm writes
  ordered : ReadsPrecede sources log

section RunLog

variable {sources : Nat → List Nat} {R R' W W' : List Nat} {log : List Access}

theorem RunLog.nil : RunLog sources [] [] [] := ⟨.nil, .nil, trivial⟩

/-- One more access, which writes only cells whose sources have been read. -/
theorem RunLog.cons (h : RunLog sources R W log) (x : Access) (hx : ∀ a ∈ x.writes, ∀ b ∈ sources a, b ∈ R) :
    RunLog sources (R ++ x.reads) (W ++ x.writes) (x :: log) where
  reads := List.perm_append_comm.trans (h.reads.append_right _)
  writes := List.perm_append_comm.trans (h.writes.append_right _)
  ordered := ⟨fun a ha b hb => h.reads.mem_iff.2 (hx a ha b hb), h.ordered⟩

theorem RunLog.perm (h : RunLog sources R W log) (hR : R.Perm R') (hW : W.Perm W') : RunLog sources R' W' log :=
  ⟨h.reads.trans hR, h.writes.trans hW, h.ordered⟩

theorem RunLog.readSingle (h : RunLog sources R W log) (a : Nat) : RunLog sources (R ++ [a]) W (.readSingle a :: log) :=
  (h.cons (.readSingle a) nofun).perm .rfl (by simp [Access.writes])

theorem RunLog.readPair (h : RunLog sources R W log) (a : Nat) :
    RunLog sources (R ++ [a, a + 1]) W (.readPair a :: log) :=
  (h.cons (.readPair a) nofun).perm .rfl (by simp [Access.writes])

theorem RunLog.writeSingle (h : RunLog sources R W log) {a : Nat} (ha : ∀ b ∈ sources a, b ∈ R) :
    RunLog sources R (W ++ [a]) (.writeSingle a :: log) :=
  (h.cons (.writeSingle a) (by simpa [Access.writes] using ha)).perm (by simp [Access.reads]) .rfl

theorem RunLog.writePair (h : RunLog sources R W log) {a : Nat} (ha : ∀ b ∈ sources a, b ∈ R)
    (ha' : ∀ b ∈ sources (a + 1), b ∈ R) : RunLog sources R (W ++ [a, a + 1]) (.writePair a :: log) :=
  (h.cons (.writePair a) (by simpa [Access.writes] using ⟨ha, ha'⟩)).perm (by simp [Access.reads]) .rfl

end RunLog

theorem range'_add_two (b n : Nat) : List.range' b (n + 2) = List.range' b n ++ [b + n, b + n + 1] := by
  rw [List.range'_1_concat, List.range'_1_concat, List.append_assoc]
  rfl

/-- What two inputs have read, put together input by input. -/
theorem perm_append_by_input (a b a' b' : List Nat) : (a ++ b ++ a' ++ b').Perm (a ++ a' ++ (b ++ b')) := by
  simp only [List.append_assoc, List.perm_append_left_iff]
  exact List.perm_append_comm_assoc b a' b'

/-! ### The vector commands (rules R162 to R168) -/

/-- What output cell `a` of a command with one input is made from. -/
def unarySources (s : State) (a : Nat) : List Nat := [s.srcA + (a - s.dstA)]

/-- What output cell `a` of a command with two inputs is made from. -/
def binarySources (s : State) (a : Nat) : List Nat := [s.srcA + (a - s.dstA), s.srcB + (a - s.dstA)]

theorem unarySources_element (s : State) (j : Nat) : unarySources s (s.dstA + j) = [s.srcA + j] := by
  simp [unarySources]

theorem binarySources_element (s : State) (j : Nat) :
    binarySources s (s.dstA + j) = [s.srcA + j, s.srcB + j] := by
  simp [binarySources]

theorem unaryPort_log (s : State) (f : Sample → Sample) (f2 : Word → Word) :
    RunLog (unarySources s) (List.range' s.srcA s.count) (List.range' s.dstA s.count) (s.unaryPort f f2).log := by
  refine unrolled_induct (P := fun j (p : Port) =>
    RunLog (unarySources s) (List.range' s.srcA j) (List.range' s.dstA j) p.log) RunLog.nil ?_ ?_
  · intro j p _ h
    rw [range'_add_two, range'_add_two]
    refine (h.readPair (s.srcA + j)).writePair ?_ ?_
    · simp [unarySources_element]
    · rw [Nat.add_assoc, unarySources_element]
      simp [Nat.add_assoc]
  · intro j p _ h
    rw [List.range'_1_concat, List.range'_1_concat]
    refine (h.readSingle (s.srcA + j)).writeSingle ?_
    simp [unarySources_element]

theorem binaryPort_log (s : State) (f : Sample → Sample → Sample) (f2 : Word → Word → Word) :
    RunLog (binarySources s) (List.range' s.srcA s.count ++ List.range' s.srcB s.count) (List.range' s.dstA s.count)
      (s.binaryPort f f2).log := by
  refine unrolled_induct (P := fun j (p : Port) => RunLog (binarySources s)
    (List.range' s.srcA j ++ List.range' s.srcB j) (List.range' s.dstA j) p.log) RunLog.nil ?_ ?_
  · intro j p _ h
    rw [range'_add_two, range'_add_two, range'_add_two]
    refine (((h.readPair (s.srcA + j)).readPair (s.srcB + j)).perm (perm_append_by_input ..) .rfl).writePair ?_ ?_
    · simp [binarySources_element]
    · rw [Nat.add_assoc, binarySources_element]
      simp [Nat.add_assoc]
  · intro j p _ h
    rw [List.range'_1_concat, List.range'_1_concat, List.range'_1_concat]
    refine (((h.readSingle (s.srcA + j)).readSingle (s.srcB + j)).perm (perm_append_by_input ..) .rfl).writeSingle ?_
    simp [binarySources_element]

theorem vfillPort_log (s : State) (v : Sample) :
    RunLog (fun _ => []) [] (List.range' s.dstA s.count) (vfillPort v s).log := by
  refine unrolled_induct (P := fun j (p : Port) => RunLog (fun _ => []) [] (List.range' s.dstA j) p.log)
    RunLog.nil ?_ ?_
  · intro j p _ h
    rw [range'_add_two]
    exact h.writePair nofun nofun
  · intro j p _ h
    rw [List.range'_1_concat]
    exact h.writeSingle nofun

theorem vmeanRun_log (s : State) :
    RunLog (fun _ => []) (List.range' s.srcA s.count) [] (vmeanRun s).port.log := by
  refine unrolled_induct (P := fun j (r : MeanRun) => RunLog (fun _ => []) (List.range' s.srcA j) [] r.port.log)
    RunLog.nil ?_ ?_
  · intro j r _ h
    rw [range'_add_two]
    exact h.readPair _
  · intro j r _ h
    rw [List.range'_1_concat]
    exact h.readSingle _

/-! ### The transpose (rules R203, R204) -/

/-- The destination cells of the first `n` elements of source row `r`: column `r`, a stride of `rows` apart. -/
def columnCells (dst rows r n : Nat) : List Nat := (List.range n).map fun c => dst + r + c * rows

/-- The destination cells of the first `r` source rows. -/
def walkCells (dst rows cols r : Nat) : List Nat := (List.range r).flatMap fun k => columnCells dst rows k cols

theorem columnCells_succ (dst rows r n : Nat) :
    columnCells dst rows r (n + 1) = columnCells dst rows r n ++ [dst + r + n * rows] := by
  simp [columnCells, List.range_succ]

theorem walkCells_succ (dst rows cols r : Nat) :
    walkCells dst rows cols (r + 1) = walkCells dst rows cols r ++ columnCells dst rows r cols := by
  simp [walkCells, List.range_succ]

theorem mem_walkCells {dst rows cols k : Nat} (hk : k < rows * cols) : dst + k ∈ walkCells dst rows cols rows := by
  have hrows : 0 < rows := Nat.pos_of_mul_pos_right (Nat.zero_lt_of_lt hk)
  have hcell : dst + k % rows + k / rows * rows = dst + k := by rw [Nat.add_assoc, Nat.mod_add_div']
  refine List.mem_flatMap.2 ⟨k % rows, List.mem_range.2 (Nat.mod_lt _ hrows), ?_⟩
  exact List.mem_map.2 ⟨k / rows, List.mem_range.2 (Nat.div_lt_of_lt_mul hk), hcell⟩

theorem length_walkCells (dst rows cols r : Nat) : (walkCells dst rows cols r).length = r * cols := by
  induction r with
  | zero => simp [walkCells]
  | succ r ih =>
    rw [walkCells_succ, List.length_append, ih, Nat.succ_mul, columnCells, List.length_map, List.length_range]

/-- The walk's destination cells are as many as the destination range has, and cover it. -/
theorem walkCells_perm (dst rows cols : Nat) :
    (walkCells dst rows cols rows).Perm (List.range' dst (rows * cols)) := by
  have hcover : List.range' dst (rows * cols) ⊆ walkCells dst rows cols rows := fun a ha => by
    obtain ⟨hle, hlt⟩ := List.mem_range'_1.1 ha
    rw [← Nat.add_sub_cancel' hle]
    exact mem_walkCells (by omega)
  refine ((List.subperm_of_subset List.nodup_range' hcover).perm_of_length_le ?_).symm
  rw [length_walkCells, List.length_range']

/-- What destination cell `a` of a transpose is made from. -/
def transposeSources (src dst rows cols a : Nat) : List Nat := [src + ((a - dst) % rows) * cols + (a - dst) / rows]

theorem transposeSources_element (src dst : Nat) {rows cols r : Nat} (c : Nat) (hr : r < rows) :
    transposeSources src dst rows cols (dst + r + c * rows) = [src + (r * cols + c)] := by
  have hoffset : dst + r + c * rows - dst = r + c * rows := by omega
  have hmod : (r + c * rows) % rows = r := by rw [Nat.add_mul_mod_self_right, Nat.mod_eq_of_lt hr]
  have hdiv : (r + c * rows) / rows = c := by
    rw [Nat.add_mul_div_right _ _ (by omega), Nat.div_eq_of_lt hr, Nat.zero_add]
  rw [transposeSources, hoffset, hmod, hdiv, Nat.add_assoc]

/-- The walk has read the first `n` source elements and written the cells `W`, and goes on at source element `n`. -/
structure WalkLog (src dst rows cols n : Nat) (W : List Nat) (w : Walk) : Prop where
  ps : w.ps = src + n
  log : RunLog (transposeSources src dst rows cols) (List.range' src n) W w.port.log

theorem scatterSingle_log {src dst rows cols r c : Nat} {W : List Nat} {w : Walk} (hr : r < rows)
    (hpd : w.pd = dst + r + c * rows) (h : WalkLog src dst rows cols (r * cols + c) W w) :
    WalkLog src dst rows cols (r * cols + (c + 1)) (W ++ [dst + r + c * rows]) (scatterSingle rows w) := by
  obtain ⟨hps, hlog⟩ := h
  refine ⟨congrArg (· + 1) hps, ?_⟩
  rw [← Nat.add_assoc, List.range'_1_concat, ← hps, ← hpd]
  refine (hlog.readSingle w.ps).writeSingle ?_
  rw [hpd, transposeSources_element src dst c hr]
  simp [hps]

theorem scatterPair_log {e : Endian} {src dst rows cols r c : Nat} {W : List Nat} {w : Walk} (hr : r < rows)
    (hpd : w.pd = dst + r + c * rows) (h : WalkLog src dst rows cols (r * cols + c) W w) :
    WalkLog src dst rows cols (r * cols + (c + 2)) (W ++ [dst + r + c * rows] ++ [dst + r + (c + 1) * rows])
      (scatterPair e rows w) := by
  obtain ⟨hps, hlog⟩ := h
  have hpd' : w.pd + rows = dst + r + (c + 1) * rows := by rw [hpd]; ring
  refine ⟨congrArg (· + 2) hps, ?_⟩
  rw [← Nat.add_assoc, range'_add_two, ← hps, ← hpd, ← hpd']
  refine ((hlog.readPair w.ps).writeSingle ?_).writeSingle ?_
  · rw [hpd, transposeSources_element src dst c hr]
    simp [hps]
  · rw [hpd', transposeSources_element src dst (c + 1) hr]
    simp [hps, Nat.add_assoc]

theorem walkRow_log {st : Straps} {src dst rows cols r : Nat} {w : Walk} (hr : r < rows)
    (h : WalkLog src dst rows cols (r * cols) (walkCells dst rows cols r) w) :
    WalkLog src dst rows cols ((r + 1) * cols) (walkCells dst rows cols (r + 1)) (walkRow st rows cols dst r w) := by
  rw [walkCells_succ, Nat.succ_mul]
  refine (unrolled_induct (st := { w with pd := dst + r }) (P := fun c (w : Walk) => w.pd = dst + r + c * rows ∧
    WalkLog src dst rows cols (r * cols + c) (walkCells dst rows cols r ++ columnCells dst rows r c) w)
    ⟨by simp, h.ps, by simpa [columnCells] using h.log⟩ ?_ ?_).2
  · intro c v _ ⟨hpd, hlog⟩
    have hnext : v.pd + rows + rows = dst + r + (c + 2) * rows := by rw [hpd]; ring
    rw [columnCells_succ, columnCells_succ, ← List.append_assoc, ← List.append_assoc]
    exact ⟨hnext, scatterPair_log hr hpd hlog⟩
  · intro c v _ ⟨hpd, hlog⟩
    have hnext : v.pd + rows = dst + r + (c + 1) * rows := by rw [hpd]; ring
    rw [columnCells_succ, ← List.append_assoc]
    exact ⟨hnext, scatterSingle_log hr hpd hlog⟩

theorem mtransWalk_log (s : State) :
    RunLog (transposeSources s.srcA s.dstA s.rows s.cols) (List.range' s.srcA (s.rows * s.cols))
      (List.range' s.dstA (s.rows * s.cols)) (mtransWalk s).port.log := by
  have hstart : WalkLog s.srcA s.dstA s.rows s.cols (0 * s.cols) (walkCells s.dstA s.rows s.cols 0)
      ⟨s.port, s.srcA, s.dstA⟩ := by
    rw [Nat.zero_mul]
    exact ⟨rfl, RunLog.nil⟩
  have hwalk := scalarLoop_induct (f := walkRow s.platform.straps s.rows s.cols s.dstA) (k := s.rows)
    (P := fun r w => WalkLog s.srcA s.dstA s.rows s.cols (r * s.cols) (walkCells s.dstA s.rows s.cols r) w) hstart
    fun r w _ hr => walkRow_log (by omega)
  rw [Nat.zero_add] at hwalk
  exact hwalk.log.perm .rfl (walkCells_perm ..)

/-! ### The access log of every command -/

theorem accessLog_mtrans_of_accepted {s : State} (h : ShapeAccepted s) :
    accessLog .mtrans s = (mtransWalk s).port.log.reverse := by
  simp [accessLog, (shapeMismatch_eq_false_iff s).2 h]

theorem accessLog_mtrans_of_rejected {s : State} (h : ¬ ShapeAccepted s) : accessLog .mtrans s = [] := by
  simp [accessLog, shapeMismatch_of_rejected h]

/-- The accesses of a command, first one first, are those of a finished run. -/
def CompleteLog (i : Instr) (s : State) (accesses : List Access) : Prop :=
  RunLog (sourcesOf i s) (inputCells i s) (List.range' (outputRange i s).1 (outputRange i s).2) accesses.reverse

theorem completeLog_of_run {i : Instr} {s : State} {log : List Access}
    (h : RunLog (sourcesOf i s) (inputCells i s) (List.range' (outputRange i s).1 (outputRange i s).2) log) :
    CompleteLog i s log.reverse := by
  unfold CompleteLog
  rwa [List.reverse_reverse]

theorem accessLog_mtrans_complete (s : State) : CompleteLog .mtrans s (accessLog .mtrans s) := by
  by_cases haccepted : ShapeAccepted s
  · rw [accessLog_mtrans_of_accepted haccepted]
    apply completeLog_of_run
    rw [inputCells, if_pos haccepted, outputRange_mtrans_of_accepted haccepted]
    exact mtransWalk_log s
  · rw [accessLog_mtrans_of_rejected haccepted, CompleteLog, inputCells, if_neg haccepted,
      outputRange_mtrans_of_rejected haccepted]
    exact RunLog.nil

theorem accessLog_complete (i : Instr) (s : State) : CompleteLog i s (accessLog i s) := by
  cases i with
  | sat | clz | pack16 | unpk0 | unpk1 | qadd16x2 | qsub16x2 => exact ⟨.nil, .nil, trivial⟩
  | vfill v => exact completeLog_of_run (vfillPort_log s v)
  | vcopy | vshift | vabs => exact completeLog_of_run (unaryPort_log s _ _)
  | vadd | vsub => exact completeLog_of_run (binaryPort_log s _ _)
  | vmean => exact completeLog_of_run (vmeanRun_log s)
  | mtrans => exact accessLog_mtrans_complete s

section CompleteLog

variable {i : Instr} {s : State} {accesses : List Access}

theorem CompleteLog.writes (h : CompleteLog i s accesses) :
    (accesses.flatMap Access.writes).Perm (List.range' (outputRange i s).1 (outputRange i s).2) :=
  ((List.reverse_perm accesses).flatMap_right _).symm.trans (RunLog.writes h)

theorem CompleteLog.reads (h : CompleteLog i s accesses) : (accesses.flatMap Access.reads).Perm (inputCells i s) :=
  ((List.reverse_perm accesses).flatMap_right _).symm.trans (RunLog.reads h)

theorem CompleteLog.sources_read_before {before later : List Access} {x : Access}
    (h : CompleteLog i s (before ++ x :: later)) :
    ∀ a ∈ x.writes, ∀ b ∈ sourcesOf i s a, b ∈ before.flatMap Access.reads := by
  intro a ha b hb
  have hordered : ReadsPrecede (sourcesOf i s) (later.reverse ++ x :: before.reverse) := by
    simpa using RunLog.ordered h
  exact ((List.reverse_perm before).flatMap_right _).mem_iff.1 (hordered.of_append a ha b hb)

end CompleteLog

end Sys2Proof.Machine

namespace Sys2Proof.Proofs

open Sys2Proof.Machine Sys2Proof.Safety

/-- Settles O54: every line of the sequencer reads the elements it then writes from, element by element. -/
theorem accessesReadBeforeWriteEachOnce : Obligations.AccessesReadBeforeWriteEachOnce := by
  intro i s _
  have hlog := accessLog_complete i s
  exact ⟨hlog.writes, hlog.reads, fun before later x hsplit => (hsplit ▸ hlog).sources_read_before⟩

end Sys2Proof.Proofs
end

section
/-! PROOFS. The encoding (30_encoding.md): decoder and encoder are inverse, the opcode map is the decoder's domain, and the
number of legal words is summed over its rows. -/

namespace Sys2Proof

/-! ### The decoder on the word of three fields (rules R91, R100) -/

@[simp] theorem decode_commandWord (imm : BitVec 16) (op : BitVec 8) :
    decode (commandWord imm op) = decodeOpcode op imm := by
  rw [decode, if_pos (zeroField_commandWord imm op), opcodeField_commandWord, imm16Field_commandWord]

/-- A legal word is the word of its other two fields, and these decode to its command. -/
theorem decode_ok {c : Word} {i : Instr} (h : decode c = .ok i) :
    commandWord (imm16Field c) (opcodeField c) = c ∧ decodeOpcode (opcodeField c) (imm16Field c) = .ok i := by
  unfold decode at h
  split_ifs at h with hz
  exact ⟨commandWord_of_fields hz, h⟩

/-! ### Decode and encode are inverse (rule R101) -/

theorem decode_encode {i : Instr} (h : i.wellFormed = true) : decode (encode i) = .ok i := by
  cases i with
  | sat bits =>
    have hbits : bits ≤ 65535 := of_decide_eq_true h
    simp [encode, decodeOpcode, Nat.mod_eq_of_lt (show bits < 65536 by omega)]
  | vshift n =>
    have hn : -32768 ≤ n ∧ n ≤ 32767 := of_decide_eq_true h
    have himm : (BitVec.ofInt 16 n).toInt = n := by
      rw [BitVec.toInt_ofInt]
      exact Int.bmod_eq_of_le (by omega) (by omega)
    simp [encode, decodeOpcode, himm]
  | vfill value => simp [encode, decodeOpcode]
  | clz | pack16 | unpk0 | unpk1 | qadd16x2 | qsub16x2 | vcopy | vadd | vsub | vmean | vabs | mtrans => decide

theorem encode_of_decodeOpcode {op : BitVec 8} {imm : BitVec 16} {i : Instr} (h : decodeOpcode op imm = .ok i) :
    encode i = commandWord imm op ∧ i.wellFormed = true := by
  rcases decodeOpcode_ok h with ⟨rfl, rfl⟩ | ⟨rfl, rfl⟩ | ⟨rfl, rfl⟩ | hfixed
  · have := imm.isLt
    exact ⟨by simp [encode], decide_eq_true (by omega)⟩
  · exact ⟨rfl, rfl⟩
  · have hle := BitVec.le_toInt imm
    have hlt := BitVec.toInt_lt (x := imm)
    exact ⟨by rw [encode, BitVec.ofInt_toInt], decide_eq_true (by omega)⟩
  · rcases hfixed with ⟨rfl, rfl, rfl⟩ | ⟨rfl, rfl, rfl⟩ | ⟨rfl, rfl, rfl⟩ | ⟨rfl, rfl, rfl⟩ | ⟨rfl, rfl, rfl⟩ |
      ⟨rfl, rfl, rfl⟩ | ⟨rfl, rfl, rfl⟩ | ⟨rfl, rfl, rfl⟩ | ⟨rfl, rfl, rfl⟩ | ⟨rfl, rfl, rfl⟩ | ⟨rfl, rfl, rfl⟩ |
      ⟨rfl, rfl, rfl⟩ <;> exact ⟨rfl, rfl⟩

theorem encode_of_decode {c : Word} {i : Instr} (h : decode c = .ok i) : encode i = c ∧ i.wellFormed = true := by
  obtain ⟨hword, hop⟩ := decode_ok h
  obtain ⟨hencode, hwf⟩ := encode_of_decodeOpcode hop
  exact ⟨hencode.trans hword, hwf⟩

/-! ### The words of the commands with an immediate (rule R98) -/

theorem toNat_encode_sat {bits : Nat} (h : bits ≤ 65535) : (encode (.sat bits)).toNat = bits * 65536 + 0x01 := by
  rw [encode, toNat_commandWord, BitVec.toNat_ofNat, Nat.mod_eq_of_lt (by omega)]
  rfl

theorem toNat_encode_vfill (v : Sample) : (encode (.vfill v)).toNat = v.toNat * 65536 + 0x10 :=
  toNat_commandWord v 0x10#8

theorem toNat_encode_vshift (n : Int) : ((encode (.vshift n)).toNat : Int) = n % 65536 * 65536 + 0x15 := by
  have hop : (0x15#8).toNat = 0x15 := rfl
  rw [encode, toNat_commandWord, BitVec.toNat_ofInt, hop]
  omega

/-! ### The rows of the opcode map (rule R94) -/

/-- Two rows that agree on the bits both of them fix are one row. -/
theorem opcodeMap_exclusive : ∀ r ∈ opcodeMap, ∀ r' ∈ opcodeMap,
    r.matchWord &&& r'.mask = r'.matchWord &&& r.mask → r = r' := by decide

theorem OpcodeRow.selects_iff (r : OpcodeRow) (c : Word) : r.selects c = true ↔ c &&& r.mask = r.matchWord :=
  beq_iff_eq

theorem row_unique {c : Word} {r r' : OpcodeRow} (hr : r ∈ opcodeMap) (hr' : r' ∈ opcodeMap)
    (h : r.selects c = true) (h' : r'.selects c = true) : r = r' := by
  rw [OpcodeRow.selects_iff] at h h'
  apply opcodeMap_exclusive r hr r' hr'
  rw [← h, ← h', BitVec.and_assoc, BitVec.and_assoc, BitVec.and_comm r.mask]

/-- The row of a command without an immediate: every bit is fixed, and the one word is legal. -/
def OpcodeRow.OneWord (r : OpcodeRow) : Prop := r.mask = 0xFFFFFFFF#32 ∧ ∃ i, decode r.matchWord = .ok i

/-- The row of a command with an immediate: `imm16` is free, and the opcode takes any. -/
def OpcodeRow.AnyImmediate (r : OpcodeRow) (op : BitVec 8) : Prop :=
  r.mask = 0x0000FFFF#32 ∧ r.matchWord = op.setWidth 32 ∧ ∀ imm, ∃ i, decodeOpcode op imm = .ok i

theorem opcodeMap_rows : ∀ r ∈ opcodeMap, r.OneWord ∨ ∃ op, r.AnyImmediate op := by
  simp only [opcodeMap, List.forall_mem_cons]
  exact ⟨.inr ⟨0x01#8, rfl, rfl, fun _ => ⟨_, rfl⟩⟩, .inl ⟨rfl, _, rfl⟩, .inl ⟨rfl, _, rfl⟩,
    .inl ⟨rfl, _, rfl⟩, .inl ⟨rfl, _, rfl⟩, .inl ⟨rfl, _, rfl⟩, .inl ⟨rfl, _, rfl⟩,
    .inr ⟨0x10#8, rfl, rfl, fun _ => ⟨_, rfl⟩⟩, .inl ⟨rfl, _, rfl⟩, .inl ⟨rfl, _, rfl⟩, .inl ⟨rfl, _, rfl⟩,
    .inl ⟨rfl, _, rfl⟩, .inr ⟨0x15#8, rfl, rfl, fun _ => ⟨_, rfl⟩⟩, .inl ⟨rfl, _, rfl⟩, .inl ⟨rfl, _, rfl⟩,
    List.forall_mem_nil _⟩

theorem OpcodeRow.OneWord.selects_iff {r : OpcodeRow} (h : r.OneWord) (c : Word) :
    r.selects c = true ↔ c = r.matchWord := by
  have hones : (0xFFFFFFFF#32) = BitVec.allOnes 32 := rfl
  rw [OpcodeRow.selects_iff, h.1, hones, BitVec.and_allOnes]

theorem OpcodeRow.AnyImmediate.selects_iff {r : OpcodeRow} {op : BitVec 8} (h : r.AnyImmediate op) (c : Word) :
    r.selects c = true ↔ ∃ imm, commandWord imm op = c := by
  obtain ⟨hm, hw, -⟩ := h
  rw [OpcodeRow.selects_iff, hm, hw]
  constructor
  · intro h
    have hlow : c.toNat % 2 ^ 16 = op.toNat := by
      rw [← Nat.and_two_pow_sub_one_eq_mod, ← BitVec.toNat_setWidth_of_le (show 8 ≤ 32 by decide), ← h,
        BitVec.toNat_and]
      rfl
    refine ⟨imm16Field c, BitVec.eq_of_toNat_eq ?_⟩
    have := c.isLt
    rw [toNat_commandWord, imm16Field, BitVec.extractLsb'_toNat, Nat.shiftRight_eq_div_pow]
    omega
  · rintro ⟨imm, rfl⟩
    exact Laws.TableRow.commandWord_low imm op

theorem commandWord_injective (op : BitVec 8) : Function.Injective (commandWord · op) :=
  Function.LeftInverse.injective (g := imm16Field) fun imm => imm16Field_commandWord imm op

/-! ### The decoder's domain is what the rows select (rules R94, R95) -/

theorem decode_of_selects {c : Word} {r : OpcodeRow} (hr : r ∈ opcodeMap) (h : r.selects c = true) :
    ∃ i, decode c = .ok i := by
  rcases opcodeMap_rows r hr with hone | ⟨op, hany⟩
  · obtain rfl := (hone.selects_iff c).1 h
    exact hone.2
  · obtain ⟨imm, rfl⟩ := (hany.selects_iff c).1 h
    obtain ⟨-, -, hlegal⟩ := hany
    rw [decode_commandWord]
    exact hlegal imm

/-- Rule R101 with R94, one command at a time in the model's lemmas. -/
theorem row_selects_encode (i : Instr) : Laws.TableRow.Statement i := by
  cases i with
  | sat bits => exact Laws.TableRow.sat bits
  | clz => exact Laws.TableRow.clz
  | pack16 => exact Laws.TableRow.pack16
  | unpk0 => exact Laws.TableRow.unpk0
  | unpk1 => exact Laws.TableRow.unpk1
  | qadd16x2 => exact Laws.TableRow.qadd16x2
  | qsub16x2 => exact Laws.TableRow.qsub16x2
  | vfill value => exact Laws.TableRow.vfill value
  | vcopy => exact Laws.TableRow.vcopy
  | vadd => exact Laws.TableRow.vadd
  | vsub => exact Laws.TableRow.vsub
  | vmean => exact Laws.TableRow.vmean
  | vshift n => exact Laws.TableRow.vshift n
  | vabs => exact Laws.TableRow.vabs
  | mtrans => exact Laws.TableRow.mtrans

theorem row_of_decode {c : Word} {i : Instr} (h : decode c = .ok i) :
    ∃ r ∈ opcodeMap, r.mnemonic = i.mnemonic ∧ r.selects c = true := by
  have hrow := row_selects_encode i
  rwa [Laws.TableRow.Statement, (encode_of_decode h).1] at hrow

theorem decode_iff_selects (c : Word) : (∃ i, decode c = .ok i) ↔ ∃ r ∈ opcodeMap, r.selects c = true := by
  constructor
  · rintro ⟨i, h⟩
    obtain ⟨r, hr, -, hsel⟩ := row_of_decode h
    exact ⟨r, hr, hsel⟩
  · rintro ⟨r, hr, hsel⟩
    exact decode_of_selects hr hsel

/-! ### How many words a row selects (rule R95) -/

namespace OpcodeRow

/-- The words a row selects. -/
def words (r : OpcodeRow) : Finset Word := {c | r.selects c = true}

/-- One word where every bit is fixed, and one for each `imm16` where that field is free. -/
def wordCount (r : OpcodeRow) : Nat := if r.mask = 0xFFFFFFFF#32 then 1 else 65536

theorem mem_words {r : OpcodeRow} {c : Word} : c ∈ r.words ↔ r.selects c = true := by simp [words]

theorem card_words {r : OpcodeRow} (hr : r ∈ opcodeMap) : r.words.card = r.wordCount := by
  rcases opcodeMap_rows r hr with hone | ⟨op, hany⟩
  · have hwords : r.words = {r.matchWord} := by
      ext c
      rw [mem_words, hone.selects_iff, Finset.mem_singleton]
    rw [hwords, Finset.card_singleton, wordCount, if_pos hone.1]
  · have hwords : r.words = Finset.univ.image (commandWord · op) := by
      ext c
      simp [mem_words, hany.selects_iff]
    rw [hwords, Finset.card_image_of_injective _ (commandWord_injective op), Finset.card_univ,
      ← FinEnum.card_eq_fintypeCard, FinEnum.card_bitVec, wordCount, hany.1]
    rfl

end OpcodeRow

theorem words_pairwiseDisjoint : (opcodeMap.toFinset : Set OpcodeRow).PairwiseDisjoint OpcodeRow.words := by
  intro r hr r' hr' hne
  refine Finset.disjoint_left.2 fun c hc hc' => hne ?_
  exact row_unique (List.mem_toFinset.1 hr) (List.mem_toFinset.1 hr') (OpcodeRow.mem_words.1 hc)
    (OpcodeRow.mem_words.1 hc')

end Sys2Proof

namespace Sys2Proof.Proofs

/-- Settles O1: encoding undoes each of the decoder's cases, and the decoder reads the fields of the encoder's word. -/
theorem decodeAndEncodeAgree : Obligations.DecodeAndEncodeAgree :=
  ⟨fun _ => decode_encode, fun _ _ => encode_of_decode, fun _ => toNat_encode_sat, toNat_encode_vfill,
    fun n _ _ => toNat_encode_vshift n, by decide⟩

/-- Settles O2: a legal word is the word of its command, which the command's own row selects; no two rows share a word. -/
theorem decodeFollowsOpcodeMap : Obligations.DecodeFollowsOpcodeMap := by
  refine ⟨decode_iff_selects, fun c i hi r hr hsel => ?_, fun c r hr r' hr' => row_unique hr hr'⟩
  obtain ⟨r', hr', hname, hsel'⟩ := row_of_decode hi
  rw [row_unique hr hr' hsel hsel', hname]

/-- Settles O3: the rows share no word, so their numbers of words add up. -/
theorem legalWordsNumber196620 : Obligations.LegalWordsNumber196620 := by
  have hlegal (c : Word) : c ∈ opcodeMap.toFinset.biUnion OpcodeRow.words ↔ ∃ i, decode c = .ok i := by
    simp only [decode_iff_selects, Finset.mem_biUnion, List.mem_toFinset, OpcodeRow.mem_words]
  calc Nat.card { c : Word // ∃ i, decode c = .ok i }
      = (opcodeMap.toFinset.biUnion OpcodeRow.words).card := Nat.subtype_card _ hlegal
    _ = ∑ r ∈ opcodeMap.toFinset, r.words.card := Finset.card_biUnion words_pairwiseDisjoint
    _ = ∑ r ∈ opcodeMap.toFinset, r.wordCount :=
        Finset.sum_congr rfl fun r hr => OpcodeRow.card_words (List.mem_toFinset.1 hr)
    _ = (opcodeMap.map OpcodeRow.wordCount).sum := List.sum_toFinset _ (by decide)
    _ = 196620 := by decide

/-- Settles O4: the decoder is evaluated on each word of the table. -/
theorem tableWordsDecode : Obligations.TableWordsDecode := by
  unfold Obligations.TableWordsDecode
  decide

end Sys2Proof.Proofs
end

section
/-! PROOFS. The primitives (40_primitives.md): each datapath function as integer arithmetic or as an equality of lanes,
and from it what each primitive command leaves in `RES`. -/

namespace Sys2Proof.Machine

open Sys2Proof.Safety

/-! ### The halves of a word (rules R123 to R125) -/

theorem toNat_lane0 (w : Word) : (lane0 w).toNat = w.toNat % 65536 := toNat_low_half w

theorem toNat_lane1 (w : Word) : (lane1 w).toNat = w.toNat / 65536 := toNat_high_half w

theorem toInt_signExtend32 (x : Sample) : (x.signExtend 32 : Word).toInt = x.toInt :=
  BitVec.toInt_signExtend_of_le (by decide)

theorem lane0_eq_ofInt (w : Word) : lane0 w = BitVec.ofInt 16 w.toInt := by rw [← lane0_ofInt32, BitVec.ofInt_toInt]

/-- A function that works lane by lane, with the halves as the obligations write them. -/
theorem Lanewise2.extractLsb' {f2 : Word → Word → Word} {f : Sample → Sample → Sample} (h : Lanewise2 f2 f) (v w : Word)
    {k : Nat} (hk : k = 0 ∨ k = 16) :
    (f2 v w).extractLsb' k 16 = f (v.extractLsb' k 16) (w.extractLsb' k 16) := by
  rcases hk with rfl | rfl
  · exact (h v w).1
  · exact (h v w).2

/-! ### The saturator (rules R120, R121) -/

theorem toInt_sat (v : Word) {bits : Nat} (h1 : 1 ≤ bits) (h32 : bits ≤ 32) :
    (sat v bits).toInt = max (-(2 : Int) ^ (bits - 1)) (min ((2 : Int) ^ (bits - 1) - 1) v.toInt) := by
  have hlow : 1 ≤ (2 : Int) ^ (bits - 1) := one_le_pow₀ (by decide)
  have hhigh : (2 : Int) ^ (bits - 1) ≤ 2 ^ 31 := pow_le_pow_right₀ (by decide) (by omega)
  unfold sat
  rw [if_pos ⟨h1, h32⟩]
  push_cast
  generalize (2 : Int) ^ (bits - 1) = limit at hlow hhigh ⊢
  split_ifs with habove hbelow
  · rw [toInt_ofInt32 (by omega) (by omega)]
    omega
  · rw [toInt_ofInt32 (by omega) (by omega)]
    omega
  · omega

theorem sat_of_bits_out_of_range (v : Word) {bits : Nat} (h : bits = 0 ∨ 33 ≤ bits) : sat v bits = v :=
  if_neg (by omega)

theorem toInt_sat_16 (v : Word) : (sat v 16).toInt = clamp16 v.toInt := toInt_sat v (by decide) (by decide)

theorem toInt_sat16_eq_clamp16 (z : Int) : (sat16 z).toInt = clamp16 z := by
  rw [toInt_sat16, clamp16]
  omega

theorem toInt_scalarAdd (a b : Sample) : (scalarAdd a b).toInt = clamp16 (a.toInt + b.toInt) := by
  rw [scalarAdd_eq_qadd16, qadd16, toInt_sat16_eq_clamp16]

theorem toInt_scalarSub (a b : Sample) : (scalarSub a b).toInt = clamp16 (a.toInt - b.toInt) := by
  rw [scalarSub_eq_qsub16, qsub16, toInt_sat16_eq_clamp16]

/-! ### The leading-zero count (rule R122) -/

/-- The count below position `i` of a word whose set bits are all below `i`. -/
theorem zerosBelow_bounds {v : Word} (hv : v ≠ 0#32) : ∀ i, v.toNat < 2 ^ i →
    2 ^ (i - 1 - zerosBelow v i) ≤ v.toNat ∧ v.toNat < 2 ^ (i - zerosBelow v i) ∧ zerosBelow v i < i
  | 0, hlt => absurd (BitVec.eq_of_toNat_eq (Nat.lt_one_iff.1 hlt)) hv
  | i + 1, hlt => by
    rw [zerosBelow]
    by_cases hbit : v.getLsbD i = true
    · rw [if_pos hbit]
      exact ⟨Nat.ge_two_pow_of_testBit hbit, hlt, Nat.succ_pos i⟩
    · rw [if_neg hbit, show i + 1 - 1 - (zerosBelow v i + 1) = i - 1 - zerosBelow v i by omega, Nat.add_sub_add_right]
      have hlt' : v.toNat < 2 ^ i := by
        by_contra hge
        exact hbit (Nat.testBit_of_two_pow_le_and_two_pow_add_one_gt (Nat.not_lt.1 hge) hlt)
      obtain ⟨hlow, hhigh, hcount⟩ := zerosBelow_bounds hv i hlt'
      exact ⟨hlow, hhigh, Nat.succ_lt_succ hcount⟩

theorem clz_zero : clz 0#32 = 32 := if_pos rfl

theorem clz_bounds {v : Word} (hv : v ≠ 0#32) :
    2 ^ (31 - clz v) ≤ v.toNat ∧ v.toNat < 2 ^ (32 - clz v) ∧ clz v < 32 := by
  rw [clz, if_neg hv]
  exact zerosBelow_bounds hv 32 v.isLt

theorem clz_le (v : Word) : clz v ≤ 32 := by
  by_cases hv : v = 0#32
  · rw [hv, clz_zero]
  · exact (clz_bounds hv).2.2.le

/-- The six-bit count loses nothing on its way into `RES` (rule R136). -/
theorem toNat_clz_word (v : Word) : ((BitVec.ofNat 6 (clz v)).setWidth 32 : Word).toNat = clz v := by
  have := clz_le v
  rw [BitVec.toNat_setWidth, BitVec.toNat_ofNat]
  omega

/-! ### The shift pipeline (rules R129, R130) -/

/-- A Sample shifted left by at most 16 places stays in 32 bits. -/
theorem toInt_shiftLeft_signExtend (x : Sample) {k : Nat} (hk : k ≤ 16) :
    ((x.signExtend 32 : Word) <<< k).toInt = x.toInt * 2 ^ k := by
  have hx := sample_range x
  have hpos : 0 < (2 : Int) ^ k := by positivity
  have hpow : (2 : Int) ^ k ≤ 2 ^ 16 := pow_le_pow_right₀ (by decide) hk
  have hword : (x.signExtend 32 : Word) <<< k = BitVec.ofInt 32 (x.toInt * 2 ^ k) := by
    rw [BitVec.shiftLeft_eq_mul_twoPow, BitVec.ofInt_mul, ← toInt_signExtend32, BitVec.ofInt_toInt]
    congr 1
    apply BitVec.eq_of_toNat_eq
    rw [BitVec.toNat_twoPow, BitVec.toNat_ofInt]
    norm_cast
  rw [hword, toInt_ofInt32]
  · nlinarith
  · nlinarith

/-- A left shift by 16 places or more saturates every Sample but 0, so the clamp of stage 2 changes nothing. -/
theorem sat16_mul_pow_min (x : Int) (k : Nat) : sat16 (x * 2 ^ min k 16) = sat16 (x * 2 ^ k) := by
  rcases Nat.le_total k 16 with hk | hk
  · rw [Nat.min_eq_left hk]
  have hpow : (2 : Int) ^ 16 ≤ 2 ^ k := pow_le_pow_right₀ (by decide) hk
  rw [Nat.min_eq_right hk]
  apply BitVec.eq_of_toInt_eq
  rw [toInt_sat16, toInt_sat16]
  rcases lt_trichotomy x 0 with hneg | rfl | hpos
  · have : x * 2 ^ k ≤ -2 ^ 16 := by nlinarith
    omega
  · simp
  · have : 2 ^ 16 ≤ x * 2 ^ k := by nlinarith
    omega

/-- A right shift by 15 places or more leaves the sign alone, so the clamp of stage 2 changes nothing. -/
theorem toInt_ediv_pow_min (x : Sample) (k : Nat) : x.toInt / 2 ^ min k 15 = x.toInt / 2 ^ k := by
  have hx := sample_range x
  rcases Nat.le_total k 15 with hk | hk
  · rw [Nat.min_eq_left hk]
  have hpow : (2 : Int) ^ 15 ≤ 2 ^ k := pow_le_pow_right₀ (by decide) hk
  rw [Nat.min_eq_right hk]
  rcases lt_or_ge x.toInt 0 with hneg | hnonneg
  · rw [Int.ediv_eq_neg_one_of_neg_of_le hneg (by omega), Int.ediv_eq_neg_one_of_neg_of_le hneg (by omega)]
  · rw [Int.ediv_eq_zero_of_lt hnonneg (by omega), Int.ediv_eq_zero_of_lt hnonneg (by omega)]

theorem shift16_of_nonneg (x : Sample) {n : Int} (hn : 0 ≤ n) : shift16 x n = sat16 (x.toInt * 2 ^ n.toNat) := by
  rw [shift16, if_pos hn]
  push_cast
  rfl

theorem shift16_of_neg (x : Sample) {n : Int} (hn : n < 0) :
    shift16 x n = BitVec.ofInt 16 (x.toInt / 2 ^ (-n).toNat) := by
  rw [shift16, if_neg (by omega), Int.fdiv_eq_ediv_of_nonneg _ (by positivity)]
  push_cast
  rfl

theorem shiftPipeline_eq_shift16 (x : Sample) (n : Int) : shiftPipeline x n = shift16 x n := by
  unfold shiftPipeline
  rcases lt_or_ge n 0 with hn | hn
  · have hamount : (min (-n) 15).toNat = min (-n).toNat 15 := by omega
    rw [if_neg (by omega), shift16_of_neg x hn, lane0_eq_ofInt, BitVec.toInt_sshiftRight, toInt_signExtend32, hamount,
      Int.shiftRight_eq_div_pow]
    push_cast
    rw [toInt_ediv_pow_min]
  · have hamount : (min n 16).toNat = min n.toNat 16 := by omega
    rw [if_pos hn, shift16_of_nonneg x hn, lane0_sat16, hamount, toInt_shiftLeft_signExtend x (by omega),
      sat16_mul_pow_min]

theorem toInt_shift16_of_nonneg (x : Sample) {n : Int} (hn : 0 ≤ n) :
    (shift16 x n).toInt = clamp16 (x.toInt * 2 ^ n.toNat) := by
  rw [shift16_of_nonneg x hn, toInt_sat16_eq_clamp16]

theorem toInt_shift16_of_neg (x : Sample) {n : Int} (hn : n < 0) : (shift16 x n).toInt = x.toInt / 2 ^ (-n).toNat := by
  have hx := sample_range x
  have hpos : 0 < (2 : Int) ^ (-n).toNat := by positivity
  rw [shift16_of_neg x hn, toInt_ofInt16]
  · exact Int.le_ediv_of_mul_le hpos (by nlinarith)
  · exact Int.ediv_le_of_le_mul hpos (by nlinarith)

/-! ### The absolute value (rules R131, R132, R226) -/

theorem toInt_abs16 (x : Sample) : (abs16 x).toInt = min 32767 |x.toInt| := by
  have hx := sample_range x
  unfold abs16
  split_ifs with hnonneg
  · rw [abs_of_nonneg hnonneg]
    omega
  · rw [toInt_sat16, abs_of_neg (by omega)]
    omega

theorem scalarAbs_eq_abs16 (x : Sample) : scalarAbs x = abs16 x := by
  unfold scalarAbs abs16
  split_ifs with hnonneg hmin
  · rfl
  · subst hmin
    decide
  · have hne : x.toInt ≠ -32768 := fun h => hmin (BitVec.eq_of_toInt_eq h)
    have hx := sample_range x
    rw [sat16, show min 32767 (max (-32768) (-x.toInt)) = -x.toInt by omega]

/-! ### The end of a primitive command (rule R134) -/

theorem endWithResult_frame (s : State) (v : Word) :
    s.endWithResult v = { s with res := (s.endWithResult v).res, code := 0#2 } := rfl

theorem exec_sat (bits : Nat) (s : State) : exec (.sat bits) s = .next (s.endWithResult (sat s.ops.opa bits)) := rfl

theorem exec_clz (s : State) :
    exec .clz s = .next (s.endWithResult ((BitVec.ofNat 6 (clz s.ops.opa)).setWidth 32)) := rfl

theorem exec_pack16 (s : State) : exec .pack16 s =
    .next (s.endWithResult (pack16 s.platform.straps.endian (lane0 s.ops.opa) (lane0 s.ops.opb))) := rfl

theorem exec_unpk0 (s : State) :
    exec .unpk0 s = .next (s.endWithResult ((e0 s.platform.straps.endian s.ops.opa).signExtend 32)) := rfl

theorem exec_unpk1 (s : State) :
    exec .unpk1 s = .next (s.endWithResult ((e1 s.platform.straps.endian s.ops.opa).signExtend 32)) := rfl

theorem exec_qadd16x2 (s : State) :
    exec .qadd16x2 s = .next (s.endWithResult (qadd16x2 s.ops.opa s.ops.opb)) := rfl

theorem exec_qsub16x2 (s : State) :
    exec .qsub16x2 s = .next (s.endWithResult (qsub16x2 s.ops.opa s.ops.opb)) := rfl

end Sys2Proof.Machine

namespace Sys2Proof.Proofs

open Sys2Proof.Machine Sys2Proof.Safety

/-- Settles O24: the saturator of every width, and its fallback. -/
theorem satClampsToBits : Obligations.SatClampsToBits :=
  ⟨fun imm => decode_commandWord imm 0x01#8, fun s bits => ⟨_, exec_sat bits s, endWithResult_frame .., toInt_sat _,
    sat_of_bits_out_of_range _⟩⟩

/-- Settles O25: the saturator at 16 bits clamps, and its low half is `sat16` of the word's value. -/
theorem saturationAtSixteenBits : Obligations.SaturationAtSixteenBits := by
  refine ⟨fun v => ?_, fun z hlow hhigh => ?_, toInt_sat16⟩
  · have hsat : (sat v 16).toInt = max (-32768) (min 32767 v.toInt) := toInt_sat_16 v
    exact ⟨fun _ => by omega, fun _ => by omega, fun _ _ => BitVec.eq_of_toInt_eq (by omega)⟩
  · rw [lane0_sat16, toInt_ofInt32 (by omega) (by omega)]

/-- Settles O26: the count is followed from the top bit down to the highest set bit. -/
theorem clzCountsLeadingZeros : Obligations.ClzCountsLeadingZeros := by
  refine ⟨by decide, fun s => ⟨_, exec_clz s, endWithResult_frame .., ?_⟩⟩
  rw [State.endWithResult_res, toNat_clz_word]
  exact ⟨clz_le _, fun hzero => by rw [hzero, clz_zero], clz_bounds⟩

/-- Settles O27: the strap chooses the order of the two low halves. -/
theorem pack16PlacesHalvesByEndian : Obligations.Pack16PlacesHalvesByEndian := by
  refine ⟨by decide, fun s => ⟨_, exec_pack16 s, endWithResult_frame .., fun hlittle => ?_, fun hbig => ?_⟩⟩
  · rw [State.endWithResult_res, hlittle, pack16, toNat_lanes, toNat_lane0, toNat_lane0]
  · rw [State.endWithResult_res, hbig, pack16, toNat_lanes, toNat_lane0, toNat_lane0]

/-- Settles O28: sign extension keeps the value of the element, and unpacking undoes packing. -/
theorem unpkTakesElementsByEndian : Obligations.UnpkTakesElementsByEndian := by
  refine ⟨by decide, by decide, fun s => ⟨⟨_, exec_unpk0 s, endWithResult_frame .., fun hlittle => ?_, fun hbig => ?_⟩,
    ⟨_, exec_unpk1 s, endWithResult_frame .., fun hlittle => ?_, fun hbig => ?_⟩,
    _, _, _, exec_pack16 s, exec_unpk0 _, exec_unpk1 _, ?_, ?_⟩⟩
  · rw [State.endWithResult_res, toInt_signExtend32, hlittle, e0, lane0]
  · rw [State.endWithResult_res, toInt_signExtend32, hbig, e0, lane1]
  · rw [State.endWithResult_res, toInt_signExtend32, hlittle, e1, lane1]
  · rw [State.endWithResult_res, toInt_signExtend32, hbig, e1, lane0]
  · exact congrArg (BitVec.signExtend 32) (e0_pack16 ..)
  · exact congrArg (BitVec.signExtend 32) (e1_pack16 ..)

/-- Settles O29: the elements are the lanes the strap names, and the lanes of a word make the word. -/
theorem unpackInvertsPack : Obligations.UnpackInvertsPack :=
  ⟨fun w => ⟨toNat_lane0 w, toNat_lane1 w, toNat_lane1 w, toNat_lane0 w⟩,
    fun e l h w => ⟨e0_pack16 e l h, e1_pack16 e l h, pack16_e0_e1 e w⟩⟩

/-- Settles O30: the adder works lane by lane, and each lane clamps its sum. -/
theorem qadd16x2AddsLanesWithSaturation : Obligations.Qadd16x2AddsLanesWithSaturation := by
  refine ⟨by decide, fun s => ⟨_, exec_qadd16x2 s, endWithResult_frame .., fun k hk => ?_⟩⟩
  rw [State.endWithResult_res, lanewise_qadd16.extractLsb' _ _ hk, toInt_scalarAdd]

/-- Settles O31: the subtractor works lane by lane, and each lane clamps its difference. -/
theorem qsub16x2SubtractsLanesWithSaturation : Obligations.Qsub16x2SubtractsLanesWithSaturation := by
  refine ⟨by decide, fun s => ⟨_, exec_qsub16x2 s, endWithResult_frame .., fun k hk => ?_⟩⟩
  rw [State.endWithResult_res, lanewise_qsub16.extractLsb' _ _ hk, toInt_scalarSub]

/-- Settles O32: the clamps of the amount change no result, so the pipeline is the exact shift in each lane. -/
theorem shiftPipelineIsExactShift : Obligations.ShiftPipelineIsExactShift := by
  refine ⟨fun x n => ?_, fun w n => ?_⟩
  · rw [shiftPipeline_eq_shift16]
    exact ⟨rfl, toInt_shift16_of_nonneg x, toInt_shift16_of_neg x⟩
  · rw [← shiftPipeline_eq_shift16, ← shiftPipeline_eq_shift16]
    exact lanewise_shiftPipeline n w

/-- Settles O33: both strategies are `abs16`, which saturates the magnitude of the minimum only. -/
theorem absoluteValueStrategiesAgree : Obligations.AbsoluteValueStrategiesAgree := by
  refine ⟨fun x => ?_, fun w => ?_⟩
  · rw [absSelect_qsub16_zero, scalarAbs_eq_abs16]
    exact ⟨rfl, rfl, toInt_abs16 x⟩
  · rw [← scalarAbs_eq_abs16, ← scalarAbs_eq_abs16]
    exact lanewise_abs16x2 w

end Sys2Proof.Proofs
end

section
/-! PROOFS. The vector commands (41_vector.md): the end state of each rule, on either path of the sequencer, and the
properties the rules derive from them. -/

namespace Sys2Proof.Machine

open Sys2Proof.Safety

/-! ### What a vector command that writes memory leaves (rules R161 to R165, R167, R168) -/

/-- `t` is `s` with `c a` in the cell at each `a` and `STATUS.CODE = 0`, in canonical form. -/
structure LeavesCells (s : State) (c : Nat → Sample) (t : State) : Prop where
  frame : t = { s with mem := t.mem, code := 0#2 }
  canonical : t.mem.wf
  cells : ∀ a, t.mem.read a = c a

section LeavesCells

variable {s t : State} {i : Instr} {c : Nat → Sample} {f : Nat → Sample}

theorem LeavesCells.inside (h : LeavesCells s (vectorEnd s f) t) {k : Nat} (hk : k < s.count) :
    t.mem.read (s.dstA + k) = f k := (h.cells _).trans (vectorEnd_inside s f hk)

theorem LeavesCells.outside (h : LeavesCells s (vectorEnd s f) t) (a : Nat) (ha : a < s.dstA ∨ s.dstA + s.count ≤ a) :
    t.mem.read a = s.mem.read a := (h.cells a).trans (vectorEnd_outside s f ha)

/-- Writing to every output cell what it holds changes no cell. -/
theorem vectorEnd_eq_read (hsame : ∀ k < s.count, f k = s.mem.read (s.dstA + k)) (a : Nat) :
    vectorEnd s f a = s.mem.read a := by
  by_cases ha : s.dstA ≤ a ∧ a < s.dstA + s.count
  · obtain ⟨k, rfl⟩ := Nat.exists_eq_add_of_le ha.1
    have hk : k < s.count := by omega
    rw [vectorEnd_inside s f hk, hsame k hk]
  · exact vectorEnd_outside s f (by omega)

theorem LeavesCells.mem_eq (h : LeavesCells s (vectorEnd s f) t) (hm : s.mem.wf)
    (hsame : ∀ k < s.count, f k = s.mem.read (s.dstA + k)) : t.mem = s.mem :=
  Mem.ext_read h.canonical hm fun a => (h.cells a).trans (vectorEnd_eq_read hsame a)

/-- A memory command without a forbidden overlap that completes leaves the memory of its run. -/
theorem endMemoryCommand_leavesCells {valid overlap : Bool} {b n : Nat} {m : Mem}
    (hrun : m.wf ∧ ∀ a, m.read a = c a) (hoverlap : overlap = false)
    (h : s.endMemoryCommand i valid overlap b n m = .next t) : LeavesCells s c t := by
  subst hoverlap
  cases valid with
  | true => cases h; exact ⟨rfl, hrun.1, hrun.2⟩
  | false => cases h

/-- A command with one input, whose scalar line computes `g`. -/
theorem endUnary_leavesCells {f g : Sample → Sample} {f2 : Word → Word} (hf : Lanewise f2 f) (hg : ∀ x, f x = g x)
    (hm : s.mem.wf) (hlock : Lockstep s.dstA s.srcA s.count) (h : s.endUnary i (s.unaryPort f f2) = .next t) :
    LeavesCells s (vectorEnd s fun k => g (s.mem.read (s.srcA + k))) t := by
  obtain rfl : f = g := funext hg
  exact endMemoryCommand_leavesCells (unaryPort_spec hf hm hlock) ((unaryOverlap_eq_false_iff s).2 hlock) h

/-- A command with two inputs, whose scalar line computes `g`. -/
theorem endBinary_leavesCells {f g : Sample → Sample → Sample} {f2 : Word → Word → Word} (hf : Lanewise2 f2 f)
    (hg : ∀ x y, f x y = g x y) (hm : s.mem.wf)
    (hlocks : Lockstep s.dstA s.srcA s.count ∧ Lockstep s.dstA s.srcB s.count)
    (h : s.endBinary i (s.binaryPort f f2) = .next t) :
    LeavesCells s (vectorEnd s fun k => g (s.mem.read (s.srcA + k)) (s.mem.read (s.srcB + k))) t := by
  obtain rfl : f = g := funext₂ hg
  exact endMemoryCommand_leavesCells (binaryPort_spec hf hm hlocks.1 hlocks.2)
    ((binaryOverlap_eq_false_iff s).2 hlocks) h

/-- Command `i` is a vector command that writes memory, and its rule makes output element `k` the value `f s k`. -/
structure WritesVector (i : Instr) (f : State → Nat → Sample) : Prop where
  vector : isVector i = true
  notMean : i ≠ .vmean
  elements : ∀ s, endCell i s = vectorEnd s (f s)

/-- A vector command that completes without a forbidden overlap leaves the cells of its rule. -/
theorem WritesVector.leavesCells {f : State → Nat → Sample} (hi : WritesVector i f) (h : exec i s = .next t)
    (hm : s.mem.wf) (hover : OverlapOk i s) : LeavesCells s (vectorEnd s (f s)) t := by
  obtain ⟨hvector, hmean, helements⟩ := hi
  rw [← helements s]
  cases i with
  | sat | clz | pack16 | unpk0 | unpk1 | qadd16x2 | qsub16x2 | mtrans => cases hvector
  | vmean => exact absurd rfl hmean
  | vfill v => exact endMemoryCommand_leavesCells (vfillPort_spec v hm) rfl h
  | vcopy => exact endUnary_leavesCells lanewise_id (fun _ => rfl) hm hover h
  | vadd => exact endBinary_leavesCells lanewise_qadd16 scalarAdd_eq_qadd16 hm hover h
  | vsub => exact endBinary_leavesCells lanewise_qsub16 scalarSub_eq_qsub16 hm hover h
  | vshift n => exact endUnary_leavesCells (lanewise_shiftPipeline n) (shiftPipeline_eq_shift16 · n) hm hover h
  | vabs => exact endUnary_leavesCells lanewise_abs16x2 scalarAbs_eq_abs16 hm hover h

/-- Within its preconditions the command completes and leaves the cells of its rule. -/
theorem WritesVector.completes {f : State → Nat → Sample} (hi : WritesVector i f) (hinv : MachineInv s)
    (haddr : AddressesOk i s) (hover : OverlapOk i s) :
    ∃ t, exec i s = .next t ∧ LeavesCells s (vectorEnd s (f s)) t := by
  obtain ⟨t, ht⟩ := (exec_completes i s).1 haddr
  exact ⟨t, ht, hi.leavesCells ht hinv.memCanonical hover⟩

end LeavesCells

/-! ### The elements each rule writes -/

theorem writesVector_vfill (v : Sample) : WritesVector (.vfill v) fun _ _ => v := ⟨rfl, nofun, fun _ => rfl⟩

theorem writesVector_vcopy : WritesVector .vcopy fun s k => s.mem.read (s.srcA + k) := ⟨rfl, nofun, fun _ => rfl⟩

theorem writesVector_vadd :
    WritesVector .vadd fun s k => qadd16 (s.mem.read (s.srcA + k)) (s.mem.read (s.srcB + k)) :=
  ⟨rfl, nofun, fun _ => rfl⟩

theorem writesVector_vsub :
    WritesVector .vsub fun s k => qsub16 (s.mem.read (s.srcA + k)) (s.mem.read (s.srcB + k)) :=
  ⟨rfl, nofun, fun _ => rfl⟩

theorem writesVector_vshift (n : Int) : WritesVector (.vshift n) fun s k => shift16 (s.mem.read (s.srcA + k)) n :=
  ⟨rfl, nofun, fun _ => rfl⟩

theorem writesVector_vabs : WritesVector .vabs fun s k => abs16 (s.mem.read (s.srcA + k)) :=
  ⟨rfl, nofun, fun _ => rfl⟩

/-! ### The element functions -/

theorem toInt_qadd16_eq_clamp16 (a b : Sample) : (qadd16 a b).toInt = clamp16 (a.toInt + b.toInt) :=
  toInt_sat16_eq_clamp16 _

theorem toInt_qsub16_eq_clamp16 (a b : Sample) : (qsub16 a b).toInt = clamp16 (a.toInt - b.toInt) :=
  toInt_sat16_eq_clamp16 _

theorem qadd16_comm (a b : Sample) : qadd16 a b = qadd16 b a := congrArg sat16 (Int.add_comm _ _)

theorem toInt_abs16_nonneg (x : Sample) : 0 ≤ (abs16 x).toInt := by
  rw [toInt_abs16]
  exact le_min (by decide) (abs_nonneg _)

theorem abs16_abs16 (x : Sample) : abs16 (abs16 x) = abs16 x := if_pos (toInt_abs16_nonneg x)

/-! ### The mean (rule R166) -/

/-- The mean of Samples is no larger than a Sample can be, so `sat16` changes nothing. -/
theorem tdiv_exactSum_le (m : Mem) (b : Nat) {n : Nat} (hn : n ≠ 0) : (exactSum m b n).tdiv n ≤ 32767 := by
  obtain ⟨-, hsum⟩ := exactSum_range m b n
  calc (exactSum m b n).tdiv n ≤ (n * 32767 : Int).tdiv n := Int.tdiv_le_tdiv (by omega) hsum
    _ = 32767 := Int.mul_tdiv_cancel_left _ (by omega)

theorem toInt_endResult_vmean {s : State} (h : s.count ≠ 0) :
    (endResult .vmean s).toInt = (exactSum s.mem s.srcA s.count).tdiv s.count := by
  obtain ⟨hlow, -⟩ := tdiv_exactSum_range s.mem s.srcA s.count
  have hhigh := tdiv_exactSum_le s.mem s.srcA h
  rw [endResult, if_neg h, toInt_signExtend32, toInt_sat16]
  omega

/-! ### An empty vector (rule R169) -/

theorem unrolled_zero {σ : Type} (b : Bool) (packed scalar : Nat → σ → σ) (st : σ) :
    unrolled b 0 packed scalar st = st := by cases b <;> rfl

section Empty

variable {s : State} {i : Instr} (h0 : s.count = 0)

include h0

theorem vfillPort_of_empty (v : Sample) : vfillPort v s = s.port := by rw [vfillPort, h0, unrolled_zero]

theorem unaryPort_of_empty (f : Sample → Sample) (f2 : Word → Word) : s.unaryPort f f2 = s.port := by
  rw [State.unaryPort, h0, unrolled_zero]

theorem binaryPort_of_empty (f : Sample → Sample → Sample) (f2 : Word → Word → Word) : s.binaryPort f f2 = s.port := by
  rw [State.binaryPort, h0, unrolled_zero]

theorem vmeanRun_of_empty : vmeanRun s = ⟨s.port, 0#48⟩ := by rw [vmeanRun, h0, unrolled_zero]

theorem lockstep_of_empty (a b : Nat) : Lockstep a b s.count := by
  unfold Lockstep
  omega

theorem execVfill_of_empty (v : Sample) : execVfill v s = .next { s with code := 0#2 } := by
  rw [execVfill, vfillPort_of_empty h0]
  exact endMemoryCommand_of_ok ((rangeValid_iff ..).2 (.inl h0)) rfl

theorem endUnary_of_empty (f : Sample → Sample) (f2 : Word → Word) :
    s.endUnary i (s.unaryPort f f2) = .next { s with code := 0#2 } := by
  rw [unaryPort_of_empty h0]
  exact endUnary_of_ok (.inl h0) (.inl h0) (lockstep_of_empty h0 ..)

theorem endBinary_of_empty (f : Sample → Sample → Sample) (f2 : Word → Word → Word) :
    s.endBinary i (s.binaryPort f f2) = .next { s with code := 0#2 } := by
  rw [binaryPort_of_empty h0]
  exact endBinary_of_ok (.inl h0) (.inl h0) (.inl h0) (lockstep_of_empty h0 ..) (lockstep_of_empty h0 ..)

theorem execVmean_of_empty : execVmean s = .next { s with code := 0#2 } := by
  rw [execVmean_of_valid (.inl h0), if_pos h0]
  rfl

theorem exec_of_empty (hi : isVector i = true) : exec i s = .next { s with code := 0#2 } := by
  cases i with
  | sat | clz | pack16 | unpk0 | unpk1 | qadd16x2 | qsub16x2 | mtrans => cases hi
  | vfill v => exact execVfill_of_empty h0 v
  | vcopy | vshift | vabs => exact endUnary_of_empty h0 ..
  | vadd | vsub => exact endBinary_of_empty h0 ..
  | vmean => exact execVmean_of_empty h0

theorem accessLog_of_empty (hi : isVector i = true) : accessLog i s = [] := by
  cases i with
  | sat | clz | pack16 | unpk0 | unpk1 | qadd16x2 | qsub16x2 | mtrans => cases hi
  | vfill v => exact congrArg (·.log.reverse) (vfillPort_of_empty h0 v)
  | vcopy | vshift | vabs => exact congrArg (·.log.reverse) (unaryPort_of_empty h0 ..)
  | vadd | vsub => exact congrArg (·.log.reverse) (binaryPort_of_empty h0 ..)
  | vmean => exact congrArg (·.port.log.reverse) (vmeanRun_of_empty h0)

end Empty

end Sys2Proof.Machine

namespace Sys2Proof.Proofs

open Sys2Proof.Machine Sys2Proof.Safety

/-- Settles O34: the cells of VFILL's rule, inside and outside its output range. -/
theorem vfillFillsOutputRange : Obligations.VfillFillsOutputRange := by
  refine ⟨fun imm => decode_commandWord imm 0x10#8, fun s v hinv hdst => ?_⟩
  obtain ⟨t, ht, hcells⟩ := (writesVector_vfill v).completes hinv hdst trivial
  exact ⟨t, ht, hcells.frame, fun k hk => hcells.inside hk, hcells.outside⟩

/-- Settles O35: in place, every output cell is written with what it holds. -/
theorem vcopyCopiesElements : Obligations.VcopyCopiesElements := by
  refine ⟨by decide, fun s hinv hsrc hdst hlock => ?_⟩
  obtain ⟨t, ht, hcells⟩ := writesVector_vcopy.completes hinv ⟨hsrc, hdst⟩ hlock
  refine ⟨t, ht, hcells.frame, fun k hk => hcells.inside hk, hcells.outside, fun hplace => ?_⟩
  have hbase : s.dstA = s.srcA := congrArg BitVec.toNat hplace
  exact hcells.mem_eq hinv.memCanonical fun k _ => by rw [hbase]

/-- Settles O36: every output element is the saturated sum of the old ones. -/
theorem vaddAddsElementsWithSaturation : Obligations.VaddAddsElementsWithSaturation := by
  refine ⟨by decide, fun s hinv hsrca hsrcb hdst hlocka hlockb => ?_⟩
  obtain ⟨t, ht, hcells⟩ := writesVector_vadd.completes hinv ⟨hsrca, hsrcb, hdst⟩ ⟨hlocka, hlockb⟩
  refine ⟨t, ht, hcells.frame, fun k hk => ?_, hcells.outside⟩
  rw [hcells.inside hk, toInt_qadd16_eq_clamp16]

/-- Settles O37: every output element is the saturated difference of the old ones. -/
theorem vsubSubtractsElementsWithSaturation : Obligations.VsubSubtractsElementsWithSaturation := by
  refine ⟨by decide, fun s hinv hsrca hsrcb hdst hlocka hlockb => ?_⟩
  obtain ⟨t, ht, hcells⟩ := writesVector_vsub.completes hinv ⟨hsrca, hsrcb, hdst⟩ ⟨hlocka, hlockb⟩
  refine ⟨t, ht, hcells.frame, fun k hk => ?_, hcells.outside⟩
  rw [hcells.inside hk, toInt_qsub16_eq_clamp16]

/-- Settles O38: the accumulator is exact, and the truncated mean of Samples is in the range of a Sample. -/
theorem vmeanReturnsTruncatedMean : Obligations.VmeanReturnsTruncatedMean := by
  refine ⟨by decide, fun s hsrc => ⟨execVmean_of_empty, fun hcount => ⟨(vmeanRun_spec s).2, ?_⟩⟩⟩
  have hexec : exec .vmean s = .next (s.endWithResult (endResult .vmean s)) :=
    (execVmean_of_valid hsrc).trans (by rw [if_neg hcount])
  exact ⟨_, hexec, endWithResult_frame .., toInt_endResult_vmean hcount⟩

/-- Settles O39: every output element is the exact shift of the old one. -/
theorem vshiftShiftsElements : Obligations.VshiftShiftsElements := by
  refine ⟨fun imm => decode_commandWord imm 0x15#8, fun s n hinv hsrc hdst hlock => ?_⟩
  obtain ⟨t, ht, hcells⟩ := (writesVector_vshift n).completes hinv ⟨hsrc, hdst⟩ hlock
  refine ⟨t, ht, hcells.frame, fun k hk => ?_, hcells.outside⟩
  rw [hcells.inside hk]
  exact ⟨toInt_shift16_of_nonneg _, toInt_shift16_of_neg _⟩

/-- Settles O40: every output element is the capped magnitude of the old one. -/
theorem vabsTakesMagnitudes : Obligations.VabsTakesMagnitudes := by
  refine ⟨by decide, fun s hinv hsrc hdst hlock => ?_⟩
  obtain ⟨t, ht, hcells⟩ := writesVector_vabs.completes hinv ⟨hsrc, hdst⟩ hlock
  refine ⟨t, ht, hcells.frame, fun k hk => ?_, hcells.outside⟩
  rw [hcells.inside hk, toInt_abs16]

/-- Settles O41: an empty range is always valid and overlaps nothing, and the sequencer does no line. -/
theorem zeroLengthIsNoOp : Obligations.ZeroLengthIsNoOp := by
  intro i s hi hlen
  have h0 : s.count = 0 := congrArg BitVec.toNat hlen
  exact ⟨exec_of_empty h0 hi, accessLog_of_empty h0 hi⟩

/-- Settles O42: the second copy reads the output range of the first. -/
theorem copyOfCopyReproducesOriginal : Obligations.CopyOfCopyReproducesOriginal := by
  intro s t u v2 hinv hpre ht hlock hu k hk
  have hfirst := writesVector_vcopy.leavesCells ht hinv.memCanonical hpre.2
  obtain ⟨hops, -⟩ := exec_frame ht
  have hlen : t.count = s.count := congrArg (·.len.toNat) hops
  rw [← hlen] at hlock hk
  have hsecond := writesVector_vcopy.leavesCells hu hfirst.canonical hlock
  calc u.mem.read (v2.toNat + k) = t.mem.read (s.dstA + k) := hsecond.inside hk
    _ = s.mem.read (s.srcA + k) := hfirst.inside (hlen ▸ hk)

/-- Settles O43: saturated addition is commutative, element by element. -/
theorem vaddIsCommutative : Obligations.VaddIsCommutative := by
  rintro s t u hinv ⟨-, hlocka, hlockb⟩ ht hu
  have hcells := writesVector_vadd.leavesCells ht hinv.memCanonical ⟨hlocka, hlockb⟩
  have hswapped := writesVector_vadd.leavesCells hu hinv.memCanonical ⟨hlockb, hlocka⟩
  have hsums : (fun k => qadd16 (s.mem.read (s.srcB + k)) (s.mem.read (s.srcA + k))) =
      fun k => qadd16 (s.mem.read (s.srcA + k)) (s.mem.read (s.srcB + k)) := funext fun _ => qadd16_comm ..
  refine ⟨Mem.ext_read hswapped.canonical hcells.canonical fun a => ?_, ?_, ?_⟩
  · rw [hswapped.cells, hcells.cells, ← hsums]
    rfl
  · exact (exec_res hu).trans (exec_res ht).symm
  · exact (exec_code hu).trans (exec_code ht).symm

/-- Settles O44: an output of VABS is not negative, so it is its own magnitude and the second VABS changes no cell. -/
theorem vabsIsIdempotent : Obligations.VabsIsIdempotent := by
  intro s t hinv _ hplace ht
  have hbase : s.dstA = s.srcA := congrArg BitVec.toNat hplace
  have hfirst := writesVector_vabs.leavesCells ht hinv.memCanonical (.inl hbase)
  refine ⟨?_, fun k hk => ?_⟩
  · obtain ⟨hops, -⟩ := exec_frame ht
    have hdst : t.dstA = s.dstA := congrArg (·.dst.toNat) hops
    have hsrc : t.srcA = s.dstA := (congrArg (·.srca.toNat) hops).trans hbase.symm
    have hlen : t.count = s.count := congrArg (·.len.toNat) hops
    have haddr : AddressesOk .vabs t := by
      have hold := addressesOk_of_exec ht
      rw [hfirst.frame]
      exact hold
    obtain ⟨u, hu, hsecond⟩ := writesVector_vabs.completes (exec_keeps_inv hinv ht)
      haddr (.inl (hdst.trans hsrc.symm))
    have hmem : u.mem = t.mem := hsecond.mem_eq hfirst.canonical fun k hk => by
      rw [hsrc, hdst, hfirst.inside (hlen ▸ hk), abs16_abs16]
    have hcode : t.code = 0#2 := exec_code ht
    have hsame : u = t := by rw [hsecond.frame, hmem, ← hcode]
    exact hsame ▸ hu
  · rw [hfirst.inside hk]
    exact toInt_abs16_nonneg _

end Sys2Proof.Proofs
end

section
/-! PROOFS. The transpose (42_matrix.md): the cells it leaves, the shape check, a matrix with a zero dimension, and the
transpose of a transpose. -/

namespace Sys2Proof.Machine

open Sys2Proof.Safety

/-! ### The cells of the destination (rule R201) -/

section TransposedCells

variable {s t : State}

theorem transposeEnd_inside {r c : Nat} (hr : r < s.rows) (hc : c < s.cols) :
    transposeEnd s (s.dstA + c * s.rows + r) = s.mem.read (s.srcA + r * s.cols + c) := by
  have hpos : 0 < s.rows := by omega
  have hmod : (c * s.rows + r) % s.rows = r := by rw [Nat.mul_add_mod_self_right, Nat.mod_eq_of_lt hr]
  have hdiv : (c * s.rows + r) / s.rows = c := by
    rw [Nat.add_comm, Nat.add_mul_div_right _ _ hpos, Nat.div_eq_of_lt hr, Nat.zero_add]
  have hlt : c * s.rows + r < s.cols * s.rows := (Nat.div_lt_iff_lt_mul hpos).1 (hdiv.symm ▸ hc)
  rw [transposeEnd, Nat.add_assoc, Nat.mul_comm s.rows s.cols, if_pos (by omega), Nat.add_sub_cancel_left, hmod, hdiv]

theorem transposeEnd_outside {a : Nat} (h : a < s.dstA ∨ s.dstA + s.rows * s.cols ≤ a) :
    transposeEnd s a = s.mem.read a := if_neg (by omega)

theorem LeavesCells.transposed (h : LeavesCells s (transposeEnd s) t) {r c : Nat} (hr : r < s.rows) (hc : c < s.cols) :
    t.mem.read (s.dstA + c * s.rows + r) = s.mem.read (s.srcA + r * s.cols + c) :=
  (h.cells _).trans (transposeEnd_inside hr hc)

/-- A transpose that goes on to run and completes without a forbidden overlap leaves the cells of its rule. -/
theorem execMtrans_leavesCells (haccepted : ShapeAccepted s) (hm : s.mem.wf) (hover : OverlapOk .mtrans s)
    (h : exec .mtrans s = .next t) : LeavesCells s (transposeEnd s) t :=
  have hdisjoint := hover haccepted
  endMemoryCommand_leavesCells (mtransWalk_spec hm hdisjoint) ((mtransOverlap_eq_false_iff s).2 hdisjoint)
    ((execMtrans_of_accepted haccepted).symm.trans h)

/-- Two transposes, the second of what the first left and with the dimensions exchanged, copy the source in order. -/
theorem LeavesCells.transposed_twice {s' u : State} (h : LeavesCells s (transposeEnd s) t)
    (h' : LeavesCells s' (transposeEnd s') u) (hmem : s'.mem = t.mem) (hsrc : s'.srcA = s.dstA)
    (hrows : s'.rows = s.cols) (hcols : s'.cols = s.rows) {k : Nat} (hk : k < s.rows * s.cols) :
    u.mem.read (s'.dstA + k) = s.mem.read (s.srcA + k) := by
  have hr : k / s.cols < s.rows := Nat.div_lt_of_lt_mul (Nat.mul_comm s.rows s.cols ▸ hk)
  have hc : k % s.cols < s.cols := Nat.mod_lt _ (Nat.pos_of_mul_pos_left (Nat.zero_lt_of_lt hk))
  have hsplit : k / s.cols * s.cols + k % s.cols = k := Nat.div_add_mod' k s.cols
  calc u.mem.read (s'.dstA + k)
      = u.mem.read (s'.dstA + k / s.cols * s'.rows + k % s.cols) := by rw [hrows, Nat.add_assoc, hsplit]
    _ = s'.mem.read (s'.srcA + k % s.cols * s'.cols + k / s.cols) := h'.transposed (hrows ▸ hc) (hcols ▸ hr)
    _ = t.mem.read (s.dstA + k % s.cols * s.rows + k / s.cols) := by rw [hmem, hsrc, hcols]
    _ = s.mem.read (s.srcA + k / s.cols * s.cols + k % s.cols) := h.transposed hr hc
    _ = s.mem.read (s.srcA + k) := by rw [Nat.add_assoc, hsplit]

end TransposedCells

/-! ### The shape check (rules R202, R242) -/

theorem exec_mtrans_of_rejected {s : State} (h : ¬ ShapeAccepted s) : exec .mtrans s = .next { s with code := 1#2 } :=
  execMtrans_of_rejected h

theorem shapeAccepted_of_disabled {s : State} (h : s.platform.straps.shapeCheckEn = false) : ShapeAccepted s :=
  fun henabled => absurd (h.symm.trans henabled) Bool.false_ne_true

theorem eq_mtrans_of_endCode_eq_one {i : Instr} {s : State} (h : endCode i s = 1#2) :
    i = .mtrans ∧ ¬ ShapeAccepted s := by
  by_contra hneither
  rw [endCode, if_neg hneither] at h
  exact absurd h (by decide)

theorem lane0_rotateLeft (w : Word) : lane0 (w.rotateLeft 16) = lane1 w := by
  ext i hi
  simp [lane0, lane1, hi]

theorem lane1_rotateLeft (w : Word) : lane1 (w.rotateLeft 16) = lane0 w := by
  ext i hi
  have hhigh : 16 + i < 32 := by omega
  have hlow : w.getLsbD i = w[i] := BitVec.getLsbD_eq_getElem (by omega)
  simp [lane0, lane1, hhigh, hlow]

/-- Exchanging the halves of a dimension register exchanges `ROWS` and `COLS`. -/
theorem dimRows_rotateLeft (w : Word) : dimRows (w.rotateLeft 16) = dimCols w :=
  congrArg BitVec.toNat (lane0_rotateLeft w)

theorem dimCols_rotateLeft (w : Word) : dimCols (w.rotateLeft 16) = dimRows w :=
  congrArg BitVec.toNat (lane1_rotateLeft w)

theorem shapesAgree_iff (s : State) : ShapesAgree s ↔ dimRows s.ops.ddim = s.cols ∧ dimCols s.ops.ddim = s.rows := by
  simp only [ShapesAgree, State.rows, State.cols, toNat_low_half, toNat_high_half]

/-! ### The operands of the transpose back (rules R201, R202) -/

/-- The operand registers `x` set to transpose the result of a transpose into the buffer at `b`: the old destination is
the source, its dimensions are the old ones exchanged, and the old source shape is declared. -/
def transposeBackOps (x : OperandRegs) (b : Word) : OperandRegs :=
  { x with srca := x.dst, dst := b, sdim := x.sdim.rotateLeft 16, ddim := x.sdim }

section TransposeBack

variable (s t : State) (b : Word)

theorem rows_transposeBack : (t.withOps (transposeBackOps s.ops b)).rows = s.cols := dimRows_rotateLeft s.ops.sdim

theorem cols_transposeBack : (t.withOps (transposeBackOps s.ops b)).cols = s.rows := dimCols_rotateLeft s.ops.sdim

theorem shapeAccepted_transposeBack : ShapeAccepted (t.withOps (transposeBackOps s.ops b)) := fun _ =>
  (shapesAgree_iff _).2 ⟨(cols_transposeBack s t b).symm, (rows_transposeBack s t b).symm⟩

theorem overlapOk_transposeBack (h : RangesDisjoint s.dstA b.toNat (s.rows * s.cols)) :
    OverlapOk .mtrans (t.withOps (transposeBackOps s.ops b)) := by
  intro _
  rw [rows_transposeBack, cols_transposeBack, Nat.mul_comm]
  exact h

end TransposeBack

/-! ### A zero dimension (rule R206) -/

section ZeroDimension

variable {s : State} (h0 : s.rows = 0 ∨ s.cols = 0)

include h0

/-- With no row the walk does nothing; with no column each row moves the destination address only. -/
theorem mtransWalk_port_of_empty : (mtransWalk s).port = s.port := by
  rcases h0 with hrows | hcols
  · rw [mtransWalk, hrows, scalarLoop_zero]
  · refine scalarLoop_induct (P := fun _ (w : Walk) => w.port = s.port) rfl fun r w _ _ hport => ?_
    rw [walkRow, hcols, unrolled_zero]
    exact hport

theorem exec_mtrans_of_empty (haccepted : ShapeAccepted s) : exec .mtrans s = .next { s with code := 0#2 } := by
  have hempty : s.rows * s.cols = 0 := Nat.mul_eq_zero.2 h0
  have hvalid : s.mtransValid = true := (mtransValid_iff s).2 ⟨.inl hempty, .inl hempty⟩
  have hoverlap : s.mtransOverlap = false := (mtransOverlap_eq_false_iff s).2 (.inl hempty)
  rw [exec, execMtrans_of_accepted haccepted, mtransWalk_port_of_empty h0]
  exact endMemoryCommand_of_ok hvalid hoverlap

theorem accessLog_mtrans_of_empty : accessLog .mtrans s = [] := by
  by_cases haccepted : ShapeAccepted s
  · rw [accessLog_mtrans_of_accepted haccepted, mtransWalk_port_of_empty h0]
    rfl
  · exact accessLog_mtrans_of_rejected haccepted

end ZeroDimension

end Sys2Proof.Machine

namespace Sys2Proof.Proofs

open Sys2Proof.Machine Sys2Proof.Safety

/-- Settles O45: the walk leaves the cells of the rule; a failed check raises. -/
theorem mtransWritesTranspose : Obligations.MtransWritesTranspose := by
  refine ⟨by decide, fun s hinv haccepted hsrc hdst hdisjoint => ?_, fun s => exec_mtrans_of_rejected⟩
  obtain ⟨t, ht⟩ := (exec_completes .mtrans s).1 fun _ => ⟨hsrc, hdst⟩
  have hcells := execMtrans_leavesCells haccepted hinv.memCanonical (fun _ => hdisjoint) ht
  exact ⟨t, ht, hcells.frame, fun r hr c hc => hcells.transposed hr hc,
    fun a ha => (hcells.cells a).trans (transposeEnd_outside ha)⟩

/-- Settles O46: code 1 is the code of a rejected MTRANS and of no other end, and a disabled check accepts every shape
without reading `DDIM`. -/
theorem shapeCheckRaisesSizeMismatch : Obligations.ShapeCheckRaisesSizeMismatch := by
  refine ⟨fun s henabled hdiffer => ?_, fun s t hdisabled h => ?_, fun s t d hdisabled hover h => ?_,
    fun i s t h hcode => ?_⟩
  · have hrejected : ¬ ShapeAccepted s := fun haccepted => by
      have hagree := haccepted henabled
      omega
    exact ⟨exec_mtrans_of_rejected hrejected, accessLog_mtrans_of_rejected hrejected⟩
  · exact (exec_code h).trans (endCode_eq_zero fun _ => shapeAccepted_of_disabled hdisabled)
  · have hddim : s.platform.straps.shapeCheckEn = true → s.ops.ddim = d := by simp [hdisabled]
    obtain ⟨hops, -⟩ := exec_frame h
    rw [hops]
    exact exec_withOps (x := { s.ops with ddim := d }) ⟨rfl, rfl, rfl, hddim⟩ hover h
  · obtain ⟨hi, hrejected⟩ := eq_mtrans_of_endCode_eq_one ((exec_code h).symm.trans hcode)
    exact ⟨hi, Classical.not_imp.1 hrejected⟩

/-- Settles O47: an empty walk makes no access, and an empty range is valid and overlaps nothing. -/
theorem zeroDimensionTransposesNothing : Obligations.ZeroDimensionTransposesNothing :=
  fun _ h0 => ⟨accessLog_mtrans_of_empty h0, exec_mtrans_of_empty h0, exec_mtrans_of_rejected⟩

/-- Settles O48: the second transpose reads the output range of the first, with rows and columns exchanged. -/
theorem transposeOfTransposeIsOriginal : Obligations.TransposeOfTransposeIsOriginal := by
  intro s t u b hinv haccepted hpre ht hdisjoint hu k hk
  have hfirst := execMtrans_leavesCells haccepted hinv.memCanonical hpre.2 ht
  obtain ⟨hops, -⟩ := exec_frame ht
  rw [hops] at hu
  have hsecond := execMtrans_leavesCells (shapeAccepted_transposeBack s t b) hfirst.canonical
    (overlapOk_transposeBack s t b hdisjoint) hu
  exact hfirst.transposed_twice hsecond rfl rfl (rows_transposeBack s t b) (cols_transposeBack s t b) hk

end Sys2Proof.Proofs
end

section
/-! PROOFS. The unrolled-loop pattern of the sequencer (43_loop_pattern.md): the packed and the scalar path leave the end
state of the command's rule, and pair accesses are made at even indices of the main loop only. -/

namespace Sys2Proof.Machine

open Sys2Proof.Safety

/-! ### The end state of a command's rule (rule R224) -/

/-- `t` is `s` but for memory, `RES` and `STATUS.CODE`, and its memory is canonical and holds the cells of the rule of
command `i`. What `RES` and `STATUS.CODE` hold is `exec_res` and `exec_code`. -/
structure LeavesRuleCells (i : Instr) (s t : State) : Prop where
  frame : t = { s with mem := t.mem, res := t.res, code := t.code }
  canonical : t.mem.wf
  cells : ∀ a, t.mem.read a = endCell i s a

section RuleCells

variable {i : Instr} {s t : State}

theorem LeavesCells.leavesRuleCells (h : LeavesCells s (endCell i s) t) : LeavesRuleCells i s t := by
  obtain ⟨hframe, hcanonical, hcells⟩ := h
  exact ⟨by rw [hframe], hcanonical, hcells⟩

/-- VMEAN writes no memory (rule R166). -/
theorem execVmean_leavesRuleCells (h : exec .vmean s = .next t) (hm : s.mem.wf) : LeavesRuleCells .vmean s t := by
  have hexec := execVmean_of_valid (addressesOk_of_exec h)
  obtain rfl := Host.Outcome.next.inj (h.symm.trans hexec)
  split_ifs
  · exact ⟨rfl, hm, fun _ => rfl⟩
  · exact ⟨rfl, hm, fun _ => rfl⟩

/-- An MTRANS transposes, or fails the shape check and writes no memory (rules R201, R202). -/
theorem execMtrans_leavesRuleCells (h : exec .mtrans s = .next t) (hm : s.mem.wf) (hover : OverlapOk .mtrans s) :
    LeavesRuleCells .mtrans s t := by
  by_cases haccepted : ShapeAccepted s
  · have hcells : endCell .mtrans s = transposeEnd s := funext fun _ => if_pos haccepted
    exact LeavesCells.leavesRuleCells (hcells ▸ execMtrans_leavesCells haccepted hm hover h)
  · have hcells : endCell .mtrans s = s.mem.read := funext fun _ => if_neg haccepted
    obtain rfl := Host.Outcome.next.inj (h.symm.trans (exec_mtrans_of_rejected haccepted))
    exact ⟨rfl, hm, fun a => (congrFun hcells a).symm⟩

/-- Whichever path runs: neither the strap nor the loops enter `endCell`. -/
theorem exec_leavesRuleCells (h : exec i s = .next t) (hm : s.mem.wf) (hover : OverlapOk i s) :
    LeavesRuleCells i s t := by
  cases i with
  | sat | clz | pack16 | unpk0 | unpk1 | qadd16x2 | qsub16x2 => cases h; exact ⟨rfl, hm, fun _ => rfl⟩
  | vfill v => exact ((writesVector_vfill v).leavesCells h hm hover).leavesRuleCells
  | vcopy => exact (writesVector_vcopy.leavesCells h hm hover).leavesRuleCells
  | vadd => exact (writesVector_vadd.leavesCells h hm hover).leavesRuleCells
  | vsub => exact (writesVector_vsub.leavesCells h hm hover).leavesRuleCells
  | vmean => exact execVmean_leavesRuleCells h hm
  | vshift n => exact ((writesVector_vshift n).leavesCells h hm hover).leavesRuleCells
  | vabs => exact (writesVector_vabs.leavesCells h hm hover).leavesRuleCells
  | mtrans => exact execMtrans_leavesRuleCells h hm hover

end RuleCells

/-! ### The rule does not depend on `PACKED_EN` -/

section Packed

variable {i : Instr} {s t : State} (b : Bool)

theorem addressesOk_withPacked (h : AddressesOk i s) : AddressesOk i (withPacked b s) := by cases i <;> exact h

theorem overlapOk_withPacked (h : OverlapOk i s) : OverlapOk i (withPacked b s) := by cases i <;> exact h

@[simp] theorem endCell_withPacked (i : Instr) (s : State) : endCell i (withPacked b s) = endCell i s := by
  cases i <;> rfl

@[simp] theorem endResult_withPacked (i : Instr) (s : State) : endResult i (withPacked b s) = endResult i s := by
  cases i <;> rfl

@[simp] theorem endCode_withPacked (i : Instr) (s : State) : endCode i (withPacked b s) = endCode i s := rfl

/-- A command that completes without a forbidden overlap leaves the same state on either path. -/
theorem exec_withPacked (h : exec i s = .next t) (hm : s.mem.wf) (hover : OverlapOk i s) :
    exec i (withPacked b s) = .next (withPacked b t) := by
  obtain ⟨u, hu⟩ := (exec_completes i (withPacked b s)).1 (addressesOk_withPacked b (addressesOk_of_exec h))
  obtain ⟨hframe, hcanonical, hcells⟩ := exec_leavesRuleCells h hm hover
  obtain ⟨hframe', hcanonical', hcells'⟩ := exec_leavesRuleCells hu hm (overlapOk_withPacked b hover)
  have hmem : u.mem = t.mem := mem_eq_of_same_reads ⟨hcanonical, hcells⟩ ⟨hcanonical', by simpa using hcells'⟩
  have hres : u.res = t.res := by rw [exec_res hu, exec_res h, endResult_withPacked]
  have hcode : u.code = t.code := by rw [exec_code hu, exec_code h, endCode_withPacked]
  have hsame : u = withPacked b t := by
    rw [hframe', hmem, hres, hcode, hframe]
    rfl
  rw [hu, hsame]

end Packed

/-! ### The indices of the two loops (rules R220, R221) -/

/-- Elements `k` and `k + 1` of `n` are a pair of the main loop, which runs with `PACKED_EN = 1`. -/
structure PairIndex (packedEn : Bool) (n k : Nat) : Prop where
  packed : packedEn = true
  even : k % 2 = 0
  inMainLoop : k + 1 < 4 * (n / 4)

/-- Element `k` of `n` is moved alone: with `PACKED_EN = 1` it is one of the remainder. -/
structure SingleIndex (packedEn : Bool) (n k : Nat) : Prop where
  lt : k < n
  inRemainder : packedEn = true → 4 * (n / 4) ≤ k

/-- `unrolled_induct` with the indices at which the pattern makes each kind of step. -/
theorem unrolled_induct_indices {σ : Type} {b : Bool} {n : Nat} {packed scalar : Nat → σ → σ} {P : Nat → σ → Prop}
    {st : σ} (h0 : P 0 st) (hp : ∀ j st, PairIndex b n j → P j st → P (j + 2) (packed j st))
    (hs : ∀ j st, SingleIndex b n j → P j st → P (j + 1) (scalar j st)) : P n (unrolled b n packed scalar st) := by
  have hsplit : 4 * (n / 4) + n % 4 = n := Nat.div_add_mod n 4
  cases b with
  | true =>
    have hmain : 4 * (n / 4) % 2 = 0 ∧ P (4 * (n / 4)) (mainLoop packed 0 (n / 4) st) := by
      have := mainLoop_induct (f := packed) (k := n / 4) (P := fun j st => j % 2 = 0 ∧ P j st) ⟨rfl, h0⟩
        fun j st _ hlt ⟨heven, h⟩ => ⟨by omega, hp j st ⟨rfl, heven, by omega⟩ h⟩
      rwa [Nat.zero_add] at this
    have hall := scalarLoop_induct (f := scalar) (k := n % 4) hmain.2
      fun j st hle hlt => hs j st ⟨by omega, fun _ => hle⟩
    rwa [hsplit] at hall
  | false =>
    have hall := scalarLoop_induct (f := scalar) (k := n) h0 fun j st _ hlt => hs j st ⟨by omega, nofun⟩
    rwa [Nat.zero_add] at hall

/-! ### Where a vector command accesses memory (rule R221) -/

/-- An access that rule R221 allows a vector command. -/
def VectorAccess (s : State) : Access → Prop
  | .readSingle a => ∃ k, SingleIndex s.platform.straps.packedEn s.count k ∧ (a = s.srcA + k ∨ a = s.srcB + k)
  | .readPair a => ∃ k, PairIndex s.platform.straps.packedEn s.count k ∧ (a = s.srcA + k ∨ a = s.srcB + k)
  | .writeSingle a => ∃ k, SingleIndex s.platform.straps.packedEn s.count k ∧ a = s.dstA + k
  | .writePair a => ∃ k, PairIndex s.platform.straps.packedEn s.count k ∧ a = s.dstA + k

section VectorAccess

variable {s : State} {k : Nat}

section Pair

variable (h : PairIndex s.platform.straps.packedEn s.count k)

include h

theorem VectorAccess.readPairA : VectorAccess s (.readPair (s.srcA + k)) := ⟨k, h, .inl rfl⟩

theorem VectorAccess.readPairB : VectorAccess s (.readPair (s.srcB + k)) := ⟨k, h, .inr rfl⟩

theorem VectorAccess.writePair : VectorAccess s (.writePair (s.dstA + k)) := ⟨k, h, rfl⟩

end Pair

section Single

variable (h : SingleIndex s.platform.straps.packedEn s.count k)

include h

theorem VectorAccess.readSingleA : VectorAccess s (.readSingle (s.srcA + k)) := ⟨k, h, .inl rfl⟩

theorem VectorAccess.readSingleB : VectorAccess s (.readSingle (s.srcB + k)) := ⟨k, h, .inr rfl⟩

theorem VectorAccess.writeSingle : VectorAccess s (.writeSingle (s.dstA + k)) := ⟨k, h, rfl⟩

end Single

end VectorAccess

/-- Every access of a log satisfies `Q`. -/
def AllAccesses (Q : Access → Prop) (log : List Access) : Prop := ∀ x ∈ log, Q x

section AllAccesses

variable {Q : Access → Prop} {x : Access} {log : List Access}

theorem AllAccesses.nil : AllAccesses Q [] := nofun

theorem AllAccesses.cons (h : AllAccesses Q log) (hx : Q x) : AllAccesses Q (x :: log) :=
  List.forall_mem_cons.2 ⟨hx, h⟩

theorem AllAccesses.reverse (h : AllAccesses Q log) : AllAccesses Q log.reverse :=
  fun x hx => h x (List.mem_reverse.1 hx)

end AllAccesses

section VectorRuns

variable (s : State)

theorem vfillPort_accesses (v : Sample) : AllAccesses (VectorAccess s) (vfillPort v s).log :=
  unrolled_induct_indices (P := fun _ (p : Port) => AllAccesses (VectorAccess s) p.log) .nil
    (fun _ _ hj h => h.cons (.writePair hj)) (fun _ _ hj h => h.cons (.writeSingle hj))

theorem unaryPort_accesses (f : Sample → Sample) (f2 : Word → Word) :
    AllAccesses (VectorAccess s) (s.unaryPort f f2).log :=
  unrolled_induct_indices (P := fun _ (p : Port) => AllAccesses (VectorAccess s) p.log) .nil
    (fun _ _ hj h => (h.cons (.readPairA hj)).cons (.writePair hj))
    (fun _ _ hj h => (h.cons (.readSingleA hj)).cons (.writeSingle hj))

theorem binaryPort_accesses (f : Sample → Sample → Sample) (f2 : Word → Word → Word) :
    AllAccesses (VectorAccess s) (s.binaryPort f f2).log :=
  unrolled_induct_indices (P := fun _ (p : Port) => AllAccesses (VectorAccess s) p.log) .nil
    (fun _ _ hj h => ((h.cons (.readPairA hj)).cons (.readPairB hj)).cons (.writePair hj))
    (fun _ _ hj h => ((h.cons (.readSingleA hj)).cons (.readSingleB hj)).cons (.writeSingle hj))

theorem vmeanRun_accesses : AllAccesses (VectorAccess s) (vmeanRun s).port.log :=
  unrolled_induct_indices (P := fun _ (r : MeanRun) => AllAccesses (VectorAccess s) r.port.log) .nil
    (fun _ _ hj h => h.cons (.readPairA hj)) (fun _ _ hj h => h.cons (.readSingleA hj))

theorem accessLog_vectorAccesses {i : Instr} (hi : i ≠ .mtrans) : AllAccesses (VectorAccess s) (accessLog i s) := by
  cases i with
  | sat | clz | pack16 | unpk0 | unpk1 | qadd16x2 | qsub16x2 => exact .nil
  | vfill v => exact (vfillPort_accesses s v).reverse
  | vcopy | vshift | vabs => exact (unaryPort_accesses s _ _).reverse
  | vadd | vsub => exact (binaryPort_accesses s _ _).reverse
  | vmean => exact (vmeanRun_accesses s).reverse
  | mtrans => exact absurd rfl hi

end VectorRuns

/-! ### Where the transpose accesses memory (rules R204, R221) -/

/-- An access that rule R221 allows MTRANS: the pattern runs over each source row, and its writes are single. -/
def WalkAccess (s : State) : Access → Prop
  | .readSingle a =>
    ∃ r < s.rows, ∃ k, SingleIndex s.platform.straps.packedEn s.cols k ∧ a = s.srcA + r * s.cols + k
  | .readPair a => ∃ r < s.rows, ∃ k, PairIndex s.platform.straps.packedEn s.cols k ∧ a = s.srcA + r * s.cols + k
  | .writeSingle _ => True
  | .writePair _ => False

section Walk

variable {s : State} {r c a : Nat} {w : Walk}

theorem WalkAccess.readSingle (hr : r < s.rows) (hc : SingleIndex s.platform.straps.packedEn s.cols c)
    (ha : a = s.srcA + r * s.cols + c) : WalkAccess s (.readSingle a) := ⟨r, hr, c, hc, ha⟩

theorem WalkAccess.readPair (hr : r < s.rows) (hc : PairIndex s.platform.straps.packedEn s.cols c)
    (ha : a = s.srcA + r * s.cols + c) : WalkAccess s (.readPair a) := ⟨r, hr, c, hc, ha⟩

theorem WalkAccess.writeSingle : WalkAccess s (.writeSingle a) := trivial

/-- The walk is at source address `a`, and rule R221 allowed every access so far. -/
structure WalkAllowed (s : State) (a : Nat) (w : Walk) : Prop where
  ps : w.ps = a
  accesses : AllAccesses (WalkAccess s) w.port.log

theorem walkRow_allowed (hr : r < s.rows) (h : WalkAllowed s (s.srcA + r * s.cols) w) :
    WalkAllowed s (s.srcA + (r + 1) * s.cols) (walkRow s.platform.straps s.rows s.cols s.dstA r w) := by
  rw [Nat.succ_mul, ← Nat.add_assoc]
  refine unrolled_induct_indices (P := fun c w => WalkAllowed s (s.srcA + r * s.cols + c) w) ⟨h.ps, h.accesses⟩ ?_ ?_
  · intro c v hc ⟨hps, hlog⟩
    exact ⟨congrArg (· + 2) hps, ((hlog.cons (.readPair hr hc hps)).cons .writeSingle).cons .writeSingle⟩
  · intro c v hc ⟨hps, hlog⟩
    exact ⟨congrArg (· + 1) hps, (hlog.cons (.readSingle hr hc hps)).cons .writeSingle⟩

end Walk

theorem mtransWalk_accesses (s : State) : AllAccesses (WalkAccess s) (mtransWalk s).port.log := by
  have hstart : WalkAllowed s (s.srcA + 0 * s.cols) ⟨s.port, s.srcA, s.dstA⟩ := ⟨by simp, .nil⟩
  have hwalk := scalarLoop_induct (f := walkRow s.platform.straps s.rows s.cols s.dstA) (k := s.rows)
    (P := fun r w => WalkAllowed s (s.srcA + r * s.cols) w) hstart fun r w _ hr => walkRow_allowed (by omega)
  exact hwalk.accesses

theorem accessLog_walkAccesses (s : State) : AllAccesses (WalkAccess s) (accessLog .mtrans s) := by
  by_cases haccepted : ShapeAccepted s
  · rw [accessLog_mtrans_of_accepted haccepted]
    exact (mtransWalk_accesses s).reverse
  · rw [accessLog_mtrans_of_rejected haccepted]
    exact .nil

end Sys2Proof.Machine

namespace Sys2Proof.Proofs

open Sys2Proof.Machine Sys2Proof.Safety

/-- Settles O49: both paths leave the end state of the rule, which `PACKED_EN` does not enter. -/
theorem packedAndScalarPathsLeaveTheEndState : Obligations.PackedAndScalarPathsLeaveTheEndState := by
  intro i s hinv ⟨haddr, hover⟩
  obtain ⟨t, ht⟩ := (exec_completes i s).1 haddr
  exact ⟨t, fun b => exec_withPacked b ht hinv.memCanonical hover,
    (exec_leavesRuleCells ht hinv.memCanonical hover).cells, exec_res ht, exec_code ht⟩

/-- Settles O55: each access stands in a line of the main loop or of the remainder, at the index of that line. -/
theorem pairAccessesOnlyInMainLoop : Obligations.PairAccessesOnlyInMainLoop := by
  intro i s a
  by_cases hi : i = .mtrans
  · subst hi
    have hlog := accessLog_walkAccesses s
    refine ⟨fun h => ?_, fun h => (hlog _ h).elim, fun hpacked => ⟨fun h => ?_, fun _ hne => absurd rfl hne⟩⟩
    · obtain ⟨r, hr, k, hk, ha⟩ := hlog _ h
      exact ⟨hk.packed, .inr ⟨rfl, r, hr, k, hk.even, hk.inMainLoop, ha⟩⟩
    · obtain ⟨r, hr, k, hk, ha⟩ := hlog _ h
      exact .inr ⟨rfl, r, hr, k, hk.inRemainder hpacked, hk.lt, ha⟩
  · have hlog := accessLog_vectorAccesses s hi
    refine ⟨fun h => ?_, fun h => ?_, fun hpacked => ⟨fun h => ?_, fun h _ => ?_⟩⟩
    · obtain ⟨k, hk, ha⟩ := hlog _ h
      exact ⟨hk.packed, .inl ⟨hi, k, hk.even, hk.inMainLoop, ha⟩⟩
    · obtain ⟨k, hk, ha⟩ := hlog _ h
      exact ⟨hk.packed, hi, k, hk.even, hk.inMainLoop, ha⟩
    · obtain ⟨k, hk, ha⟩ := hlog _ h
      exact .inl ⟨hi, k, hk.inRemainder hpacked, hk.lt, ha⟩
    · obtain ⟨k, hk, ha⟩ := hlog _ h
      exact ⟨k, hk.inRemainder hpacked, hk.lt, ha⟩

end Sys2Proof.Proofs
end

section
/-! PROOFS. What a command ends with (60_exceptions.md): a word no row selects has no command and raises
`IllegalCommand`, and each issued word leaves the code of its condition. -/

namespace Sys2Proof

/-! ### The words outside the opcode map (rules R94, R95) -/

theorem decode_error_of_not_selected {c : Word} (h : ∀ r ∈ opcodeMap, r.selects c = false) :
    ∃ e, decode c = .error e := by
  cases hc : decode c with
  | ok i =>
    obtain ⟨r, hr, hsel⟩ := (decode_iff_selects c).1 ⟨i, hc⟩
    exact absurd hsel (Bool.eq_false_iff.1 (h r hr))
  | error e => exact ⟨e, rfl⟩

namespace Machine

open Sys2Proof.Safety

/-! ### STATUS.CODE after an issued word (rule R241) -/

theorem issue_code_of_error {s t : State} {c : Word} {e : Illegal} (hc : decode c = .error e)
    (h : s.issue c = .next t) : t.code = 2#2 := by
  rw [issue_error hc] at h
  cases h
  rfl

theorem issue_code_of_ok {s t : State} {c : Word} {i : Instr} (hc : decode c = .ok i) (h : s.issue c = .next t) :
    t.code = endCode i s := exec_code (issue_ok hc ▸ h)

end Machine

end Sys2Proof

namespace Sys2Proof.Proofs

open Sys2Proof.Machine Sys2Proof.Safety

/-- Settles O6: no command stands for the word, so `Issue` raises `IllegalCommand`, which writes `STATUS.CODE` only. -/
theorem illegalWordRaisesIllegalCommand : Obligations.IllegalWordRaisesIllegalCommand := by
  intro s rest c hmove hunselected
  obtain ⟨e, hc⟩ := decode_error_of_not_selected hunselected
  exact (step_issue hmove).trans (issue_error hc)

/-- Settles O19: an illegal word leaves the code of `IllegalCommand`, and a legal one that of its command's end. -/
theorem statusCodeOfEveryCommand : Obligations.StatusCodeOfEveryCommand := by
  intro s t c h
  refine ⟨fun e hc => issue_code_of_error hc h, fun i hc hi hrejected => ?_, fun i hc haccepted => ?_, ?_⟩
  · subst hi
    exact (issue_code_of_ok hc h).trans (endCode_mtrans_of_rejected hrejected)
  · exact (issue_code_of_ok hc h).trans (endCode_eq_zero haccepted)
  · cases hc : decode c with
    | ok i => exact issue_code_of_ok hc h ▸ endCode_ne_three i s
    | error e => exact issue_code_of_error hc h ▸ by decide

end Sys2Proof.Proofs
end

section
/-! PROOFS. Reset and access counts (70_reset_and_hazards.md): what a reset leaves between and during commands, and how
many accesses of each kind a command makes on the memory port. -/

namespace Sys2Proof.Machine

open Sys2Proof.Safety

/-! ### Reset (rules R270, R271) -/

section Reset

variable {s t : State} {rest : List HostMove} {i : Instr}

theorem step_reset (h : s.hostIn = .reset :: rest) : step s = .next (State.resetUnit { s with hostIn := rest }) :=
  step_cons h

theorem resetDuring_of_next {c : Word} (hc : decode c = .ok i) (h : exec i s = .next t) :
    s.resetDuring c = .next (s.abandon i t) := by
  unfold State.resetDuring
  rw [hc]
  simp only [h]

theorem step_resetDuring {c : Word} (hmove : s.hostIn = .resetDuring c :: rest) (hc : decode c = .ok i)
    (h : exec i { s with hostIn := rest } = .next t) :
    step s = .next (State.abandon { s with hostIn := rest } i t) :=
  (step_cons hmove).trans (resetDuring_of_next hc h)

theorem read_abandonedMemory_outside {a : Nat}
    (h : a < (outputRange i s).1 ∨ (outputRange i s).1 + (outputRange i s).2 ≤ a) :
    (abandonedMemory i s t).read a = s.mem.read a := writeRange_read_outside _ _ _ _ h

/-- An output cell is new or old as the free value of log entry 7 says. -/
theorem read_abandonedMemory_inside (hm : s.mem.wf) {a : Nat} (hle : (outputRange i s).1 ≤ a)
    (hlt : a < (outputRange i s).1 + (outputRange i s).2) : (abandonedMemory i s t).read a =
      if Config.resetCellIsNew (s.circumstances i) a then t.mem.read a else s.mem.read a :=
  writeRange_read_inside _ _ _ hm hle hlt

theorem read_abandonedMemory_old_or_new (hm : s.mem.wf) (a : Nat) :
    (abandonedMemory i s t).read a = s.mem.read a ∨ (abandonedMemory i s t).read a = t.mem.read a := by
  by_cases hout : a < (outputRange i s).1 ∨ (outputRange i s).1 + (outputRange i s).2 ≤ a
  · exact .inl (read_abandonedMemory_outside hout)
  · rw [read_abandonedMemory_inside hm (by omega) (by omega)]
    split_ifs
    · exact .inr rfl
    · exact .inl rfl

end Reset

/-! ### How often the pattern runs each line (rules R220 to R223) -/

/-- How often the packed line runs over `n` elements: twice in each iteration of the main loop. -/
def pairLines (packedEn : Bool) (n : Nat) : Nat := if packedEn then 2 * (n / 4) else 0

/-- How often the scalar line runs over `n` elements: for the remainder, or for all of them. -/
def singleLines (packedEn : Bool) (n : Nat) : Nat := if packedEn then n % 4 else n

theorem singleLines_add_pairLines (b : Bool) (n : Nat) : singleLines b n + 2 * pairLines b n = n := by
  cases b with
  | true => simp only [singleLines, pairLines, if_true]; omega
  | false => rfl

/-- A property of the numbers of packed and of scalar lines done holds at the end of the pattern with the numbers of all
its lines. -/
theorem unrolled_induct_lines {σ : Type} {b : Bool} {n : Nat} {packed scalar : Nat → σ → σ} {P : Nat → Nat → σ → Prop}
    {st : σ} (h0 : P 0 0 st) (hp : ∀ j p q st, P p q st → P (p + 1) q (packed j st))
    (hs : ∀ j p q st, P p q st → P p (q + 1) (scalar j st)) :
    P (pairLines b n) (singleLines b n) (unrolled b n packed scalar st) := by
  cases b with
  | true =>
    have hmain : P (2 * (n / 4)) 0 (mainLoop packed 0 (n / 4) st) := by
      have := mainLoop_induct (f := packed) (i := 0) (k := n / 4) (P := fun j st => P (j / 2) 0 st) h0
        fun j st _ _ h => by rw [Nat.add_div_right j Nat.two_pos]; exact hp j _ _ st h
      rwa [show (0 + 4 * (n / 4)) / 2 = 2 * (n / 4) by omega] at this
    have hall := scalarLoop_induct (f := scalar) (i := 4 * (n / 4)) (k := n % 4)
      (P := fun j st => P (2 * (n / 4)) (j - 4 * (n / 4)) st) (by rwa [Nat.sub_self])
      fun j st hle _ h => by rw [Nat.sub_add_comm hle]; exact hs j _ _ st h
    rwa [Nat.add_sub_cancel_left] at hall
  | false =>
    have hall := scalarLoop_induct (f := scalar) (i := 0) (k := n) (P := fun j st => P 0 j st) h0
      fun j st _ _ h => hs j _ _ st h
    rwa [Nat.zero_add] at hall

/-! ### The accesses of a run, counted (rule R279) -/

/-- The log of a run in progress, latest access first, holds the accesses counted in `c`. -/
def LogCounts (log : List Access) (c : AccessCounts) : Prop := countAccesses log.reverse = c

section LogCounts

variable {log : List Access} {sr pr sw pw : Nat}

theorem LogCounts.nil : LogCounts [] ⟨0, 0, 0, 0⟩ := rfl

theorem LogCounts.cons {c : AccessCounts} (h : LogCounts log c) (x : Access) : LogCounts (x :: log) (c.add x) := by
  rw [LogCounts, ← h, List.reverse_cons, countAccesses, List.foldl_append]
  rfl

theorem LogCounts.readSingle (h : LogCounts log ⟨sr, pr, sw, pw⟩) (a : Nat) :
    LogCounts (.readSingle a :: log) ⟨sr + 1, pr, sw, pw⟩ := h.cons _

theorem LogCounts.readPair (h : LogCounts log ⟨sr, pr, sw, pw⟩) (a : Nat) :
    LogCounts (.readPair a :: log) ⟨sr, pr + 1, sw, pw⟩ := h.cons _

theorem LogCounts.writeSingle (h : LogCounts log ⟨sr, pr, sw, pw⟩) (a : Nat) :
    LogCounts (.writeSingle a :: log) ⟨sr, pr, sw + 1, pw⟩ := h.cons _

theorem LogCounts.writePair (h : LogCounts log ⟨sr, pr, sw, pw⟩) (a : Nat) :
    LogCounts (.writePair a :: log) ⟨sr, pr, sw, pw + 1⟩ := h.cons _

end LogCounts

section Counts

variable (s : State)

/-- How often the sequencer runs the packed line of a vector command. -/
def State.vectorPairs : Nat := pairLines s.platform.straps.packedEn s.count

/-- How often the sequencer runs the scalar line of a vector command. -/
def State.vectorSingles : Nat := singleLines s.platform.straps.packedEn s.count

/-- How often the sequencer runs the packed line on one source row of a transpose. -/
def State.rowPairs : Nat := pairLines s.platform.straps.packedEn s.cols

/-- How often the sequencer runs the scalar line on one source row of a transpose. -/
def State.rowSingles : Nat := singleLines s.platform.straps.packedEn s.cols

theorem vfillPort_counts (v : Sample) :
    LogCounts (vfillPort v s).log ⟨0, 0, s.vectorSingles, s.vectorPairs⟩ :=
  unrolled_induct_lines (P := fun p q (port : Port) => LogCounts port.log ⟨0, 0, q, p⟩) .nil
    (fun _ _ _ _ h => h.writePair _) (fun _ _ _ _ h => h.writeSingle _)

theorem unaryPort_counts (f : Sample → Sample) (f2 : Word → Word) :
    LogCounts (s.unaryPort f f2).log ⟨s.vectorSingles, s.vectorPairs, s.vectorSingles, s.vectorPairs⟩ :=
  unrolled_induct_lines (P := fun p q (port : Port) => LogCounts port.log ⟨q, p, q, p⟩) .nil
    (fun _ _ _ _ h => (h.readPair _).writePair _) (fun _ _ _ _ h => (h.readSingle _).writeSingle _)

theorem binaryPort_counts (f : Sample → Sample → Sample) (f2 : Word → Word → Word) :
    LogCounts (s.binaryPort f f2).log ⟨2 * s.vectorSingles, 2 * s.vectorPairs, s.vectorSingles, s.vectorPairs⟩ :=
  unrolled_induct_lines (P := fun p q (port : Port) => LogCounts port.log ⟨2 * q, 2 * p, q, p⟩) .nil
    (fun _ _ _ _ h => ((h.readPair _).readPair _).writePair _)
    (fun _ _ _ _ h => ((h.readSingle _).readSingle _).writeSingle _)

theorem vmeanRun_counts : LogCounts (vmeanRun s).port.log ⟨s.vectorSingles, s.vectorPairs, 0, 0⟩ :=
  unrolled_induct_lines (P := fun p q (r : MeanRun) => LogCounts r.port.log ⟨q, p, 0, 0⟩) .nil
    (fun _ _ _ _ h => h.readPair _) (fun _ _ _ _ h => h.readSingle _)

/-- One source row writes each of its elements alone, also those it reads in pairs (rule R204). -/
theorem walkRow_counts {sr pr sw r : Nat} {w : Walk} (h : LogCounts w.port.log ⟨sr, pr, sw, 0⟩) :
    LogCounts (walkRow s.platform.straps s.rows s.cols s.dstA r w).port.log
      ⟨sr + s.rowSingles, pr + s.rowPairs, sw + s.cols, 0⟩ := by
  have hrow := unrolled_induct_lines (b := s.platform.straps.packedEn) (n := s.cols)
    (packed := fun _ => scatterPair s.platform.straps.endian s.rows) (scalar := fun _ => scatterSingle s.rows)
    (P := fun p q (w : Walk) => LogCounts w.port.log ⟨sr + q, pr + p, sw + (q + 2 * p), 0⟩)
    (st := { w with pd := s.dstA + r }) h (fun _ _ _ _ h => ((h.readPair _).writeSingle _).writeSingle _)
    (fun _ p q _ h => by
      rw [Nat.add_right_comm q 1]
      exact (h.readSingle _).writeSingle _)
  rwa [singleLines_add_pairLines] at hrow

theorem mtransWalk_counts :
    LogCounts (mtransWalk s).port.log ⟨s.rows * s.rowSingles, s.rows * s.rowPairs, s.rows * s.cols, 0⟩ := by
  have hwalk := scalarLoop_induct (f := walkRow s.platform.straps s.rows s.cols s.dstA) (i := 0) (k := s.rows)
    (st := ⟨s.port, s.srcA, s.dstA⟩)
    (P := fun r w => LogCounts w.port.log ⟨r * s.rowSingles, r * s.rowPairs, r * s.cols, 0⟩)
    (by simp only [Nat.zero_mul]; exact .nil)
    fun r w _ _ h => by simp only [Nat.succ_mul]; exact walkRow_counts s h
  rwa [Nat.zero_add] at hwalk

/-! ### The rows of the table of rule R279 -/

variable {s} {i : Instr}

theorem accessLog_counts_fill (hi : ∃ v, i = .vfill v) :
    countAccesses (accessLog i s) = ⟨0, 0, s.vectorSingles, s.vectorPairs⟩ := by
  obtain ⟨v, rfl⟩ := hi
  exact vfillPort_counts s v

theorem accessLog_counts_unary (hi : i = .vcopy ∨ (∃ k, i = .vshift k) ∨ i = .vabs) :
    countAccesses (accessLog i s) = ⟨s.vectorSingles, s.vectorPairs, s.vectorSingles, s.vectorPairs⟩ := by
  rcases hi with rfl | ⟨k, rfl⟩ | rfl <;> exact unaryPort_counts s _ _

theorem accessLog_counts_binary (hi : i = .vadd ∨ i = .vsub) : countAccesses (accessLog i s) =
    ⟨2 * s.vectorSingles, 2 * s.vectorPairs, s.vectorSingles, s.vectorPairs⟩ := by
  rcases hi with rfl | rfl <;> exact binaryPort_counts s _ _

theorem accessLog_counts_mean (hi : i = .vmean) :
    countAccesses (accessLog i s) = ⟨s.vectorSingles, s.vectorPairs, 0, 0⟩ := by
  subst hi
  exact vmeanRun_counts s

theorem accessLog_counts_transpose (hi : i = .mtrans) (haccepted : ShapeAccepted s) : countAccesses (accessLog i s) =
    ⟨s.rows * s.rowSingles, s.rows * s.rowPairs, s.rows * s.cols, 0⟩ := by
  rw [hi, accessLog_mtrans_of_accepted haccepted]
  exact mtransWalk_counts s

end Counts

section Strap

variable {s : State}

theorem lines_of_scalar (h : s.platform.straps.packedEn = false) :
    s.vectorSingles = s.count ∧ s.vectorPairs = 0 ∧ s.rowSingles = s.cols ∧ s.rowPairs = 0 := by
  simp [State.vectorSingles, State.vectorPairs, State.rowSingles, State.rowPairs, singleLines, pairLines, h]

theorem lines_of_packed (h : s.platform.straps.packedEn = true) :
    s.vectorSingles = s.count % 4 ∧ s.vectorPairs = 2 * (s.count / 4) ∧
      s.rowSingles = s.cols % 4 ∧ s.rowPairs = 2 * (s.cols / 4) := by
  simp [State.vectorSingles, State.vectorPairs, State.rowSingles, State.rowPairs, singleLines, pairLines, h]

end Strap

end Sys2Proof.Machine

namespace Sys2Proof.Proofs

open Sys2Proof.Machine Sys2Proof.Safety

/-- Settles O12: the step is `State.abandon`, and the memory it leaves is written in the output range only, each cell with
its old or its new value. -/
theorem resetDuringCommandLeavesOldOrNewCells : Obligations.ResetDuringCommandLeavesOldOrNewCells := by
  intro s t rest c i hinv hmove hc h
  have hm : Mem.wf { s with hostIn := rest }.mem := hinv.memCanonical
  have hrange : outputRange i { s with hostIn := rest } = outputRange i s := rfl
  refine ⟨_, step_resetDuring hmove hc h, rfl, rfl, rfl, rfl, rfl, rfl, fun a => ⟨fun hout => ?_, ?_⟩⟩
  · exact read_abandonedMemory_outside (hrange ▸ hout)
  · exact read_abandonedMemory_old_or_new hm a

/-- Settles O53: each line of the sequencer makes a fixed number of accesses of each kind, and the strap says how often
each line runs. -/
theorem accessCountsOfEveryCommand : Obligations.AccessCountsOfEveryCommand := by
  rintro i s n m r - rfl rfl rfl
  refine ⟨fun hscalar => ?_, fun hpacked => ?_⟩
  · obtain ⟨hsingles, hpairs, hrowSingles, hrowPairs⟩ := lines_of_scalar hscalar
    refine ⟨fun hi => ?_, fun hi => ?_, fun hi => ?_, fun hi => ?_, fun hi haccepted => ?_⟩
    · rw [accessLog_counts_fill hi, hsingles, hpairs]
    · rw [accessLog_counts_unary hi, hsingles, hpairs]
    · rw [accessLog_counts_binary hi, hsingles, hpairs]
    · rw [accessLog_counts_mean hi, hsingles, hpairs]
    · rw [accessLog_counts_transpose hi haccepted, hrowSingles, hrowPairs, Nat.mul_zero]
  · obtain ⟨hsingles, hpairs, hrowSingles, hrowPairs⟩ := lines_of_packed hpacked
    have hfour : 4 * (s.count / 4) = 2 * s.vectorPairs := by omega
    rw [hfour, ← hsingles, ← hpairs, ← hrowSingles, ← hrowPairs]
    exact ⟨accessLog_counts_fill, accessLog_counts_unary, accessLog_counts_binary, accessLog_counts_mean,
      accessLog_counts_transpose⟩

/-- Settles O11: the step is `State.resetUnit`. -/
theorem resetMoveZeroesRegisters : Obligations.ResetMoveZeroesRegisters :=
  fun _ _ h => ⟨_, step_reset h, rfl, rfl, rfl, rfl, rfl, rfl, rfl⟩

end Sys2Proof.Proofs
end
